-- ==== Sys2Proof/Word.lean ====
section
/-! DEFINITION. The widths of the machine: 8-bit bytes, 16-bit words, 12-bit addresses, 4-bit register numbers
(00_scope.md R3, R8; 30_encoding.md R63, R65). Every value is unsigned. -/

namespace Sys2Proof

/-- An 8-bit value: a general register, a timer, a memory cell, an immediate NN (R10, R18, R21, R65). -/
abbrev Byte := BitVec 8

/-- A 16-bit value: I, PC, a stack entry, an instruction word (R13, R15, R17, R62). -/
abbrev Word := BitVec 16

/-- A 12-bit address or immediate NNN (R63, R65). -/
abbrev Addr := BitVec 12

/-- The number of a general register, 0 .. 15; a 4-bit field, always in range (R10). -/
abbrev RegIx := Fin 16

/-- The number of a key, 0 .. 15 (R20). -/
abbrev KeyIx := Fin 16

/-- VF, the flag register, is V[15] (R11). -/
abbrev vf : RegIx := 15

/-- The sixteen indices in rising order, for a scan of the keys "from key 0 upward" (R143, D17). -/
def allIndices : List (Fin 16) :=
  [0, 1, 2, 3, 4, 5, 6, 7] ++ [8, 9, 10, 11, 12, 13, 14, 15]

end Sys2Proof
end

