-- ==== Sys2Proof/Config.lean ====
section
/-! DEFINITION. What an implementation fixes: the open parameters of 00_scope.md R3 with the spec's defaults, and the
free values, which have no body, so that nothing can be proved about which value they take. -/

namespace Sys2Proof

/-- DATA_OOB_POLICY (R46, D12): a data access beyond 0xFFF halts with cause 5 (`fault`, the default), or its addresses
are taken modulo 4096 (`wrap12`). -/
inductive OobPolicy
  | fault
  | wrap12
  deriving DecidableEq, Repr

/-- KEYWAIT_PICK (R143 (b), D17): the key a key-wait stores when several are pressed in one sample: the lowest index
(the default), or any of them. -/
inductive KeyPick
  | lowest
  | anyPressed
  deriving DecidableEq, Repr

/-- FLAG_WRITE_ORDER (R100, D5): whether the flag (the default) or the result is written last; seen when X = 15. -/
inductive FlagOrder
  | flagLast
  | resultLast
  deriving DecidableEq, Repr

/-- STACK_USABLE (R82, D7): sixteen usable stack entries (the default), or fifteen, the other reading of C2. -/
inductive StackUsable
  | sixteen
  | fifteen
  deriving DecidableEq, Repr

/-- The number of calls that may be outstanding. -/
def StackUsable.entries : StackUsable → Nat
  | .sixteen => 16
  | .fifteen => 15

/-- One glyph: five bytes, top row first (R192). -/
abbrev Glyph := Vector Byte 5

/-- GLYPHS: the 16 glyphs of the glyph table, glyph c at address 5 * c (R42, R192). -/
abbrev GlyphTable := Vector Glyph 16

/-- The conventional glyph table, the default of GLYPHS (R192).
UNVERIFIED: the spec supplies the bytes from general knowledge (G4, D24); notes/assumptions/14.md. -/
def conventionalGlyphs : GlyphTable :=
  #v[#v[0xF0, 0x90, 0x90, 0x90, 0xF0],
     #v[0x20, 0x60, 0x20, 0x20, 0x70],
     #v[0xF0, 0x10, 0xF0, 0x80, 0xF0],
     #v[0xF0, 0x10, 0xF0, 0x10, 0xF0],
     #v[0x90, 0x90, 0xF0, 0x10, 0x10],
     #v[0xF0, 0x80, 0xF0, 0x10, 0xF0],
     #v[0xF0, 0x80, 0xF0, 0x90, 0xF0],
     #v[0xF0, 0x10, 0x20, 0x40, 0x40],
     #v[0xF0, 0x90, 0xF0, 0x90, 0xF0],
     #v[0xF0, 0x90, 0xF0, 0x10, 0xF0],
     #v[0xF0, 0x90, 0xF0, 0x90, 0x90],
     #v[0xE0, 0x90, 0xE0, 0x90, 0xE0],
     #v[0xF0, 0x80, 0x80, 0x80, 0xF0],
     #v[0xE0, 0x90, 0x90, 0x90, 0xE0],
     #v[0xF0, 0x80, 0xF0, 0x80, 0xF0],
     #v[0xF0, 0x80, 0xF0, 0x80, 0x80]]

/-- The open parameters of R3: arguments of the machine, fixed for its life. State carries them (notes/assumptions/6.md),
so that a statement about every state is a statement about every choice. -/
structure Params where
  /-- DATA_OOB_POLICY. -/
  dataOob : OobPolicy
  /-- KEYWAIT_PICK. -/
  keyPick : KeyPick
  /-- FLAG_WRITE_ORDER. -/
  flagOrder : FlagOrder
  /-- HAS_8XY0: false makes 8XY0 an unknown opcode (R111). -/
  has8xy0 : Bool
  /-- STRICT_CANONICAL: true makes a word with a non-zero ignored bit an unknown opcode (R68). -/
  strictCanonical : Bool
  /-- STACK_USABLE. -/
  stackUsable : StackUsable
  /-- PC_ALIGN_CHECK: true halts a fetch at an odd PC with cause 2 (R44). -/
  pcAlignCheck : Bool
  /-- GLYPHS. -/
  glyphs : GlyphTable
  deriving DecidableEq, Repr

/-- The defaults of R3 (the list at the end of 92_eei_decisions.md). -/
def Params.default : Params where
  dataOob := .fault
  keyPick := .lowest
  flagOrder := .flagLast
  has8xy0 := true
  strictCanonical := false
  stackUsable := .sixteen
  pcAlignCheck := false
  glyphs := conventionalGlyphs

/-- The n-th sample of the random input RND: a free 8-bit draw, "under no law" (R123, D16; notes/assumptions/5.md). -/
opaque Config.freeByte : Nat → Byte

/-- The n-th free choice among several pressed keys, where KEYWAIT_PICK leaves it free (R143 (b), U11;
notes/assumptions/7.md). -/
opaque Config.freeIndex : Nat → Nat

end Sys2Proof
end

