-- ==== Sys2Proof/Syntax.lean ====
section
/-! DEFINITION. The 34 instructions of 30_encoding.md R66 in the opcode table's order, one constructor a row. The
operands are the fields the row has (R63, R64): a register number is 4 bits, NN 8, NNN 12, N a 4-bit count. An ignored
bit (R68) is no operand. -/

namespace Sys2Proof

/-- The instructions. The comment gives the canonical encoding and the mnemonic of R66. -/
inductive Instr
  /-- 00E0 CLS (R130) -/
  | cls
  /-- 00EE RET (R80) -/
  | ret
  /-- 1NNN JP NNN (R81) -/
  | jp (nnn : Addr)
  /-- 2NNN CALL NNN (R82) -/
  | call (nnn : Addr)
  /-- 3XNN SE Vx, NN (R83) -/
  | seImm (x : RegIx) (nn : Byte)
  /-- 4XNN SNE Vx, NN (R84) -/
  | sneImm (x : RegIx) (nn : Byte)
  /-- 5XY0 SE Vx, Vy (R85) -/
  | seReg (x y : RegIx)
  /-- 6XNN LD Vx, NN (R101) -/
  | ldImm (x : RegIx) (nn : Byte)
  /-- 7XNN ADD Vx, NN (R102) -/
  | addImm (x : RegIx) (nn : Byte)
  /-- 8XY0 LD Vx, Vy (R111) -/
  | ldReg (x y : RegIx)
  /-- 8XY1 OR Vx, Vy (R103) -/
  | orReg (x y : RegIx)
  /-- 8XY2 AND Vx, Vy (R104) -/
  | andReg (x y : RegIx)
  /-- 8XY3 XOR Vx, Vy (R105) -/
  | xorReg (x y : RegIx)
  /-- 8XY4 ADD Vx, Vy (R106) -/
  | addReg (x y : RegIx)
  /-- 8XY5 SUB Vx, Vy (R107) -/
  | subReg (x y : RegIx)
  /-- 8XY6 SHR Vx, Vy (R108) -/
  | shrReg (x y : RegIx)
  /-- 8XY7 SUBN Vx, Vy (R109) -/
  | subnReg (x y : RegIx)
  /-- 8XYE SHL Vx, Vy (R110) -/
  | shlReg (x y : RegIx)
  /-- 9XY0 SNE Vx, Vy (R86) -/
  | sneReg (x y : RegIx)
  /-- ANNN LD I, NNN (R120) -/
  | ldI (nnn : Addr)
  /-- BNNN JP V0, NNN (R87) -/
  | jpV0 (nnn : Addr)
  /-- CXNN RND Vx, NN (R123) -/
  | rnd (x : RegIx) (nn : Byte)
  /-- DXYN DRW Vx, Vy, N (R131) -/
  | drw (x y : RegIx) (n : Fin 16)
  /-- EX9E SKP Vx (R140) -/
  | skp (x : RegIx)
  /-- EXA1 SKNP Vx (R141) -/
  | sknp (x : RegIx)
  /-- FX07 LD Vx, DT (R144) -/
  | ldVxDt (x : RegIx)
  /-- FX0A LD Vx, K (R142, R143) -/
  | ldVxK (x : RegIx)
  /-- FX15 LD DT, Vx (R145) -/
  | ldDtVx (x : RegIx)
  /-- FX18 LD ST, Vx (R146) -/
  | ldStVx (x : RegIx)
  /-- FX1E ADD I, Vx (R121) -/
  | addI (x : RegIx)
  /-- FX29 LD F, Vx (R122) -/
  | ldF (x : RegIx)
  /-- FX33 LD B, Vx (R150) -/
  | ldB (x : RegIx)
  /-- FX55 LD [I], Vx (R151) -/
  | ldIndVx (x : RegIx)
  /-- FX65 LD Vx, [I] (R152) -/
  | ldVxInd (x : RegIx)
  deriving DecidableEq, Repr

end Sys2Proof
end

