-- ==== Sys2Proof/WellFormed.lean ====
section
/-! DEFINITION. The checks on what is given to the machine from outside. The operands of an instruction are in range by
their types (a register index is "always in range", R10), so what is left to check is: that the instruction is one the
configured machine has (HAS_8XY0, R111), that a program image fits (R193), and that a VARIANT code is one of the three
(R26). Each check has a term it refuses in Tests/Slice0.lean. -/

namespace Sys2Proof

/-- The instruction belongs to the machine with parameters `p`: all 34 do, but for the register copy 8XY0 where HAS_8XY0
is false (R111, D2). -/
def Instr.wf (p : Params) : Instr → Bool
  | .ldReg _ _ => p.has8xy0
  | .cls | .ret | .jp _ | .call _ | .seImm _ _ | .sneImm _ _ | .seReg _ _ | .ldImm _ _ | .addImm _ _
  | .orReg _ _ | .andReg _ _ | .xorReg _ _ | .addReg _ _ | .subReg _ _ | .shrReg _ _ | .subnReg _ _ | .shlReg _ _
  | .sneReg _ _ | .ldI _ | .jpV0 _ | .rnd _ _ | .drw _ _ _ | .skp _ | .sknp _ | .ldVxDt _ | .ldVxK _
  | .ldDtVx _ | .ldStVx _ | .addI _ | .ldF _ | .ldB _ | .ldIndVx _ | .ldVxInd _ => true

/-- The largest accepted image: 4096 - 0x200 (R193, D28). -/
abbrev maxImageLength : Nat := 3584

/-- A program image is accepted iff it fits above 0x200; an empty one is accepted, an odd length too (R193). -/
def imageWf (image : List Byte) : Bool := image.length ≤ maxImageLength

/-- VARIANT code 3 is reserved and refused (R26, U10). -/
def variantCodeWf (code : BitVec 2) : Bool := code != 3

end Sys2Proof
end

