-- ==== Sys2Proof/Decode.lean ====
section
/-! DEFINITION. From bytes to instructions and back: the fields of a word (30_encoding.md R63), the opcode map (R66), the
decoder, total on any bytes (R61, R70), the two parameters that turn some words into unknown opcodes (R68, R111), and the
encoder. The numeric opcodes are the spec's from general knowledge (D1, G1; notes/assumptions/13.md). -/

namespace Sys2Proof

/-! ### Fields (R63) -/

/-- F, the opcode family, w[15:12]. -/
def family (w : Word) : BitVec 4 := w.extractLsb' 12 4

/-- X, w[11:8]. -/
def fieldX (w : Word) : RegIx := (w.extractLsb' 8 4).toFin

/-- Y, w[7:4]. -/
def fieldY (w : Word) : RegIx := (w.extractLsb' 4 4).toFin

/-- N, w[3:0], a count. -/
def fieldN (w : Word) : Fin 16 := (w.extractLsb' 0 4).toFin

/-- NN, w[7:0]. -/
def fieldNN (w : Word) : Byte := w.extractLsb' 0 8

/-- NNN, w[11:0]. -/
def fieldNNN (w : Word) : Addr := w.extractLsb' 0 12

/-! ### The opcode map (R66) -/

/-- A row of the opcode map: a word decodes to the row iff `w & mask = pattern`; `build` reads its operand fields. -/
structure OpcodeRow where
  mask : Word
  pattern : Word
  build : Word → Instr

/-- The row matches the word. -/
def OpcodeRow.hits (r : OpcodeRow) (w : Word) : Bool := w &&& r.mask == r.pattern

/-- Rows 1 to 9 of R66. -/
def opcodeRowsLow : List OpcodeRow :=
  [⟨0xF0FF, 0x00E0, fun _ => .cls⟩,
   ⟨0xF0FF, 0x00EE, fun _ => .ret⟩,
   ⟨0xF000, 0x1000, fun w => .jp (fieldNNN w)⟩,
   ⟨0xF000, 0x2000, fun w => .call (fieldNNN w)⟩,
   ⟨0xF000, 0x3000, fun w => .seImm (fieldX w) (fieldNN w)⟩,
   ⟨0xF000, 0x4000, fun w => .sneImm (fieldX w) (fieldNN w)⟩,
   ⟨0xF000, 0x5000, fun w => .seReg (fieldX w) (fieldY w)⟩,
   ⟨0xF000, 0x6000, fun w => .ldImm (fieldX w) (fieldNN w)⟩,
   ⟨0xF000, 0x7000, fun w => .addImm (fieldX w) (fieldNN w)⟩]

/-- Rows 10 to 18 of R66: family 8, keyed on the low nibble (R67). -/
def opcodeRowsAlu : List OpcodeRow :=
  [⟨0xF00F, 0x8000, fun w => .ldReg (fieldX w) (fieldY w)⟩,
   ⟨0xF00F, 0x8001, fun w => .orReg (fieldX w) (fieldY w)⟩,
   ⟨0xF00F, 0x8002, fun w => .andReg (fieldX w) (fieldY w)⟩,
   ⟨0xF00F, 0x8003, fun w => .xorReg (fieldX w) (fieldY w)⟩,
   ⟨0xF00F, 0x8004, fun w => .addReg (fieldX w) (fieldY w)⟩,
   ⟨0xF00F, 0x8005, fun w => .subReg (fieldX w) (fieldY w)⟩,
   ⟨0xF00F, 0x8006, fun w => .shrReg (fieldX w) (fieldY w)⟩,
   ⟨0xF00F, 0x8007, fun w => .subnReg (fieldX w) (fieldY w)⟩,
   ⟨0xF00F, 0x800E, fun w => .shlReg (fieldX w) (fieldY w)⟩]

/-- Rows 19 to 25 of R66. -/
def opcodeRowsMid : List OpcodeRow :=
  [⟨0xF000, 0x9000, fun w => .sneReg (fieldX w) (fieldY w)⟩,
   ⟨0xF000, 0xA000, fun w => .ldI (fieldNNN w)⟩,
   ⟨0xF000, 0xB000, fun w => .jpV0 (fieldNNN w)⟩,
   ⟨0xF000, 0xC000, fun w => .rnd (fieldX w) (fieldNN w)⟩,
   ⟨0xF000, 0xD000, fun w => .drw (fieldX w) (fieldY w) (fieldN w)⟩,
   ⟨0xF0FF, 0xE09E, fun w => .skp (fieldX w)⟩,
   ⟨0xF0FF, 0xE0A1, fun w => .sknp (fieldX w)⟩]

/-- Rows 26 to 34 of R66: family F, keyed on the low byte (R67). -/
def opcodeRowsHigh : List OpcodeRow :=
  [⟨0xF0FF, 0xF007, fun w => .ldVxDt (fieldX w)⟩,
   ⟨0xF0FF, 0xF00A, fun w => .ldVxK (fieldX w)⟩,
   ⟨0xF0FF, 0xF015, fun w => .ldDtVx (fieldX w)⟩,
   ⟨0xF0FF, 0xF018, fun w => .ldStVx (fieldX w)⟩,
   ⟨0xF0FF, 0xF01E, fun w => .addI (fieldX w)⟩,
   ⟨0xF0FF, 0xF029, fun w => .ldF (fieldX w)⟩,
   ⟨0xF0FF, 0xF033, fun w => .ldB (fieldX w)⟩,
   ⟨0xF0FF, 0xF055, fun w => .ldIndVx (fieldX w)⟩,
   ⟨0xF0FF, 0xF065, fun w => .ldVxInd (fieldX w)⟩]

/-- The complete opcode map of R66, 34 rows in its order. -/
def opcodeRows : List OpcodeRow := opcodeRowsLow ++ opcodeRowsAlu ++ opcodeRowsMid ++ opcodeRowsHigh

/-! ### The decoder -/

/-- Why bytes decode to no instruction. -/
inductive DecodeError
  /-- The word matches no row of R66: an unknown opcode, which runs as a reported no-operation (R70). -/
  | unknownOpcode (w : Word)
  /-- Fewer than two bytes: every instruction is 16 bits long (R62). -/
  | truncated
  deriving DecidableEq, Repr

/-- decode(w): exactly one of the 34 instructions, or unknown; a pure function of the 16 bits (R61, R69). -/
def decodeWord (w : Word) : Except DecodeError Instr :=
  match opcodeRows.find? (·.hits w) with
  | some r => .ok (r.build w)
  | none => .error (.unknownOpcode w)

/-- The byte at the lower address supplies bits 15:8, the one at the higher address bits 7:0 (R43). -/
def wordOfBytes (hi lo : Byte) : Word := hi ++ lo

/-- The decoder on a sequence of bytes: one instruction and the bytes after it. -/
def decode : List Byte → Except DecodeError (Instr × List Byte)
  | hi :: lo :: rest =>
    match decodeWord (wordOfBytes hi lo) with
    | .ok i => .ok (i, rest)
    | .error e => .error e
  | [_] => .error .truncated
  | [] => .error .truncated

/-! ### The encoder -/

/-- F ++ NNN, format A of R64. -/
def packA (f : BitVec 4) (nnn : Addr) : Word := f ++ nnn

/-- F ++ X ++ NN, formats XI and XS of R64 (in XS the byte is the sub-opcode). -/
def packXI (f : BitVec 4) (x : RegIx) (nn : Byte) : Word := f ++ BitVec.ofFin (w := 4) x ++ nn

/-- F ++ X ++ Y ++ N, formats XY and XYN of R64 (in XY the nibble is the sub-opcode or zero). -/
def packXY (f : BitVec 4) (x y : RegIx) (n : BitVec 4) : Word :=
  f ++ BitVec.ofFin (w := 4) x ++ BitVec.ofFin (w := 4) y ++ n

/-- The canonical encoding of an instruction: the row's pattern with the operand fields filled in and every ignored bit
zero (R64, R66). -/
def encode : Instr → Word
  | .cls => 0x00E0
  | .ret => 0x00EE
  | .jp nnn => packA 0x1 nnn
  | .call nnn => packA 0x2 nnn
  | .seImm x nn => packXI 0x3 x nn
  | .sneImm x nn => packXI 0x4 x nn
  | .seReg x y => packXY 0x5 x y 0x0
  | .ldImm x nn => packXI 0x6 x nn
  | .addImm x nn => packXI 0x7 x nn
  | .ldReg x y => packXY 0x8 x y 0x0
  | .orReg x y => packXY 0x8 x y 0x1
  | .andReg x y => packXY 0x8 x y 0x2
  | .xorReg x y => packXY 0x8 x y 0x3
  | .addReg x y => packXY 0x8 x y 0x4
  | .subReg x y => packXY 0x8 x y 0x5
  | .shrReg x y => packXY 0x8 x y 0x6
  | .subnReg x y => packXY 0x8 x y 0x7
  | .shlReg x y => packXY 0x8 x y 0xE
  | .sneReg x y => packXY 0x9 x y 0x0
  | .ldI nnn => packA 0xA nnn
  | .jpV0 nnn => packA 0xB nnn
  | .rnd x nn => packXI 0xC x nn
  | .drw x y n => packXY 0xD x y (BitVec.ofFin (w := 4) n)
  | .skp x => packXI 0xE x 0x9E
  | .sknp x => packXI 0xE x 0xA1
  | .ldVxDt x => packXI 0xF x 0x07
  | .ldVxK x => packXI 0xF x 0x0A
  | .ldDtVx x => packXI 0xF x 0x15
  | .ldStVx x => packXI 0xF x 0x18
  | .addI x => packXI 0xF x 0x1E
  | .ldF x => packXI 0xF x 0x29
  | .ldB x => packXI 0xF x 0x33
  | .ldIndVx x => packXI 0xF x 0x55
  | .ldVxInd x => packXI 0xF x 0x65

/-! ### The machine's parameters -/

/-- The word is an encoding the machine with parameters `p` executes as `i`: HAS_8XY0 false takes 8XY0 out (R111), and
STRICT_CANONICAL true takes out every word with a non-zero ignored bit, that is, every word that is not the canonical
encoding of its instruction (R68). -/
def admits (p : Params) (w : Word) (i : Instr) : Bool :=
  i.wf p && (!p.strictCanonical || encode i == w)

/-- The decoder of the machine with parameters `p`; with the defaults it is `decodeWord`. -/
def decodeFor (p : Params) (w : Word) : Except DecodeError Instr :=
  match decodeWord w with
  | .ok i => if admits p w i then .ok i else .error (.unknownOpcode w)
  | .error e => .error e

/-! ### The host's reading of a table word -/

/-- A table word of `nbits` bits as the hardware stores it: one 16-bit word, big-endian (R43, R62). -/
def tableBytes (nbits w : Nat) : List Byte :=
  let v := w % 2 ^ nbits
  [BitVec.ofNat 8 (v / 256), BitVec.ofNat 8 v]

/-- What the decoder reads from an instruction of the opcode table whose bits are `w`. -/
def decodeTableWord (nbits w : Nat) : Option Instr :=
  match decode (tableBytes nbits w) with
  | .ok (i, _) => some i
  | .error _ => none

end Sys2Proof
end

