-- ==== Sys2Proof/Machine/State.lean ====
section
/-! DEFINITION. The state of the machine as plain data: every piece of state of 10_state.md (INVENTORY.md, heading State),
the schedule of the agents' moves (00_scope.md R5, R7), and the state right after reset (10_state.md R30). -/

namespace Sys2Proof.Machine

/-- MEM: the cells that do not hold 0, as (address, byte), addresses rising. An unlisted address reads 0, the reset
contents of every cell (R18, R30). Reading and writing are in Machine/Ops.lean. -/
abbrev Memory := List Host.Cell

/-- The canonical form of memory: addresses strictly rising and inside 0 .. 4095 (R18), no cell that holds what an
unlisted address reads as. -/
abbrev Memory.wf (m : Memory) : Prop :=
  m.Pairwise (fun a b => a.1 < b.1) ∧ ∀ c ∈ m, c.1 < 4096 ∧ c.2 ≠ 0

/-- DISP: 32 rows of 64 one-bit cells, (0, 0) top-left, x to the right, y downward (R19). A two-index grid: the spec gives
no storage layout (N16). -/
abbrev Grid := Vector (Vector Bool 64) 32

/-- RUN, the run status (R25). -/
inductive RunStatus
  | starting
  | running
  | paused
  | stopped
  deriving DecidableEq, Repr

/-- VARIANT, the architecture variant (R26). -/
inductive Variant
  | base
  | extA
  | extB
  deriving DecidableEq, Repr

/-- The causes of a halt (R160). -/
inductive Cause
  /-- RUN = Stopped was sampled before an instruction or during a key-wait. -/
  | stopped
  /-- PC > 0x0FFE at a fetch (or an odd PC under PC_ALIGN_CHECK, R44). -/
  | pcOutOfBounds
  /-- CALL with the stack full. -/
  | stackOverflow
  /-- RET with the stack empty. -/
  | stackUnderflow
  /-- A data access whose last address exceeds 0xFFF. -/
  | memOutOfBounds
  deriving DecidableEq, Repr

/-- EXEC, the state of the execution unit (R27). -/
inductive ExecState
  /-- Between instructions. -/
  | runnable
  /-- An LD Vx, K has been issued with X = x, and the unit samples KEY (R142, R143). -/
  | waitK (x : RegIx)
  /-- Terminal: no further step of the execution unit exists (R163). -/
  | halted (c : Cause)
  deriving DecidableEq, Repr

/-- The two timers (R21, R22). -/
inductive Timer
  | delay
  | sound
  deriving DecidableEq, Repr

/-- How far the boot of R192 has come: what the host must do before RUN first reads Running, "in this order" (R5, R192).
DEDUCED from R5, R26 and R192 (notes/assumptions/9.md). -/
inductive BootPhase
  /-- After reset: MEM is zero, nothing is loaded. -/
  | fresh
  /-- The glyph table and the program image are in MEM. -/
  | loaded
  /-- VARIANT is fixed as well, for the life of the instance. -/
  | strapped
  /-- The host has written RUN = Running. -/
  | started
  deriving DecidableEq, Repr

/-- One event of the report port UNKNOWN_OP: the word and its address (R166). -/
structure UnknownOp where
  word : Word
  address : Word
  deriving DecidableEq, Repr

/-- One move of one agent (R7), or one write of the host (R5). -/
inductive Move
  /-- The execution unit takes its step. -/
  | execUnit
  /-- A tick event TICK_DT or TICK_ST (R4). -/
  | tick (t : Timer)
  /-- The host sets or clears key `k`. -/
  | setKey (k : KeyIx) (down : Bool)
  /-- The host writes RUN. -/
  | setRun (r : RunStatus)
  /-- The loader places the glyph table and a program image in MEM (R192 (1), (2)). -/
  | load (image : List Byte)
  /-- The loader fixes VARIANT by its 2-bit code (R192 (3), R26). -/
  | strap (code : BitVec 2)
  deriving DecidableEq, Repr

/-- The state. The last four fields are the model's own: no rule names them. -/
structure State where
  /-- V[0] .. V[15] (R10). -/
  v : Vector Byte 16
  /-- I, never masked to 12 bits (R15). -/
  i : Word
  /-- PC (R13, R14). -/
  pc : Word
  /-- SP, the count of valid stack entries, 0 .. 16 (R16). -/
  sp : Fin 17
  /-- STK[0] .. STK[15]; a popped entry keeps its value (R17). -/
  stk : Vector Word 16
  /-- MEM (R18). -/
  mem : Memory
  /-- DISP (R19). -/
  disp : Grid
  /-- KEY, true = pressed (R20). -/
  key : Vector Bool 16
  /-- DT (R21). -/
  dt : Byte
  /-- ST (R22). -/
  st : Byte
  /-- RUN (R25). -/
  run : RunStatus
  /-- VARIANT (R26). -/
  variant : Variant
  /-- EXEC (R27); HALT_CAUSE is read off it (`State.haltCause`). -/
  exec : ExecState
  /-- DT_ALIVE (R28). -/
  dtAlive : Bool
  /-- ST_ALIVE (R28). -/
  stAlive : Bool
  /-- The trace of the report port, newest first (R166). -/
  reports : List UnknownOp
  /-- The boot phase (notes/assumptions/9.md). -/
  boot : BootPhase
  /-- How many free values have been drawn (notes/assumptions/5.md). -/
  draws : Nat
  /-- The open parameters (notes/assumptions/6.md); no step writes them. -/
  params : Params
  /-- The moves still to come, the next one first; the execution unit moves when it is empty
  (notes/assumptions/3.md). -/
  agenda : List Move
  deriving DecidableEq, Repr

/-- The reasons a step stops without a next state. -/
inductive Fault
  /-- Raised by `step` when it is the execution unit's turn and the unit is halted with cause `c`: "no further step of the
  execution unit exists" (R27, R163). The halt itself was a next state, in which every register can be read. Safe: the
  hardware takes no step either. -/
  | halted (c : Cause)
  deriving DecidableEq, Repr

/-- The refusals: a move of the host that breaks one of its duties (R5), so no behaviour is specified. No instruction is
refused. -/
inductive Refusal
  /-- Raised by an arm of `exec` whose instruction has no meaning yet; no arm does. Safe. -/
  | notModelled (mnemonic : String)
  /-- Raised by `hostRun` when the host leaves RUN = Stopped (R5, R174, U14). Safe: such hosts are outside the domain. -/
  | leavesStopped
  /-- Raised by `hostRun` when the host writes RUN = Running before it has loaded MEM and fixed VARIANT (R5, R192).
  Safe. -/
  | runBeforeBoot
  /-- Raised by `hostLoad` when the host loads MEM after VARIANT is fixed (R192's order) or after the start (R5, R53), or
  once RUN is Stopped, so that it never will read Running. Safe. -/
  | loadOutOfTurn
  /-- Raised by `hostStrap` when the host fixes VARIANT before MEM is loaded (R192's order), a second time ("selected once",
  R26), after the start (R5), or once RUN is Stopped. Safe. -/
  | strapOutOfTurn
  /-- Raised by `hostLoad` for an image of more than 3584 bytes (R193; ConfigurationError of R162). Safe. -/
  | imageTooLong
  /-- Raised by `hostStrap` for VARIANT code 3 (R26, U10). Safe. -/
  | reservedVariant
  deriving DecidableEq, Repr

/-- The state right after reset (R30, R190): before the host loads memory. VARIANT has no reset value in the spec; Base
stands here (notes/assumptions/1.md), and the last four fields are the model's own. -/
def State.reset : State where
  v := Vector.replicate 16 0
  i := 0
  pc := 0x200
  sp := 0
  stk := Vector.replicate 16 0
  mem := []
  disp := Vector.replicate 32 (Vector.replicate 64 false)
  key := Vector.replicate 16 false
  dt := 0
  st := 0
  run := .starting
  variant := .base
  exec := .runnable
  dtAlive := true
  stAlive := true
  reports := []
  boot := .fresh
  draws := 0
  params := .default
  agenda := []

end Sys2Proof.Machine
end

