-- ==== Sys2Proof/Machine/Ops.lean ====
section
/-! DEFINITION. The named operations over registers, memory, stack, display and run state that the meanings share
(00_scope.md R9), taking a halt cause (60_exceptions.md R163), and fetching (30_encoding.md R60). -/

namespace Sys2Proof.Machine

/-! ### Codes on the ports (R25, R26, R160) -/

/-- The 2-bit encoding of RUN (R25, D20). -/
def RunStatus.code : RunStatus → BitVec 2
  | .starting => 0
  | .running => 1
  | .paused => 2
  | .stopped => 3

/-- The 2-bit encoding of VARIANT (R26, D20). -/
def Variant.code : Variant → BitVec 2
  | .base => 0
  | .extA => 1
  | .extB => 2

/-- The variant a code of the strap names; code 3 is reserved (R26, U10). -/
def variantOfCode (code : BitVec 2) : Option Variant :=
  if variantCodeWf code then
    some (if code = 0 then .base else if code = 1 then .extA else .extB)
  else none

/-- The 3-bit cause code (R160, D13); 0 stands for "not halted". -/
def Cause.code : Cause → BitVec 3
  | .stopped => 1
  | .pcOutOfBounds => 2
  | .stackOverflow => 3
  | .stackUnderflow => 4
  | .memOutOfBounds => 5

/-- HALT_CAUSE: 0 while the execution unit is not halted, else the cause code (R4, R24, R160). -/
def State.haltCause (s : State) : BitVec 3 :=
  match s.exec with
  | .halted c => c.code
  | .runnable => 0
  | .waitK _ => 0

/-- What the audio collaborator reads off ST: "nonzero means 'should be sounding'" (R177). -/
def State.sounding (s : State) : Bool := s.st != 0

/-! ### Registers (R9, R10) -/

/-- V[x]. -/
def State.readV (s : State) (x : RegIx) : Byte := s.v[x.val]

/-- V[x] <- b. -/
def State.setV (s : State) (x : RegIx) (b : Byte) : State := { s with v := s.v.set x.val b x.isLt }

/-- PC <- a. -/
def State.setPc (s : State) (a : Word) : State := { s with pc := a }

/-- I <- a. -/
def State.setI (s : State) (a : Word) : State := { s with i := a }

/-- PC <- (PC + 2) mod 65536: the fetch's advance (R60), and a skip's (R88). -/
def State.advancePc (s : State) : State := s.setPc (s.pc + 2)

/-- The skip law, shared by SE, SNE, SKP and SKNP (R88). -/
def State.skipIf (s : State) (holds : Bool) : State := if holds then s.advancePc else s

/-! ### Taking a halt cause (R163, R164), and the return from one (R165)

There is no vector, no handler, no saved state and no mode: the entry writes EXEC and nothing else. There is no return:
nothing in the model takes EXEC out of HALTED. -/

/-- raise: EXEC <- HALTED(c); every other element keeps its value (R163, R164). -/
def State.halt (s : State) (c : Cause) : State := { s with exec := .halted c }

/-! ### The call stack (R16, R17, R80, R82) -/

/-- Entries the stack may hold are never more than its 16 cells. -/
theorem StackUsable.entries_le (u : StackUsable) : u.entries ≤ 16 := by cases u <;> decide

/-- STK[SP] <- a; SP <- SP + 1, unless the stack is full (R82). -/
def State.push (s : State) (a : Word) : Option State :=
  if h : s.sp.val < s.params.stackUsable.entries then
    have h16 : s.sp.val < 16 := Nat.lt_of_lt_of_le h (StackUsable.entries_le _)
    some { s with stk := s.stk.set s.sp.val a h16, sp := ⟨s.sp.val + 1, by omega⟩ }
  else none

/-- SP <- SP - 1, and the entry uncovered, STK[SP]; nothing if the stack is empty (R80). -/
def State.pop (s : State) : Option (Word × State) :=
  if h : s.sp.val = 0 then none
  else some (s.stk[s.sp.val - 1], { s with sp := ⟨s.sp.val - 1, by omega⟩ })

/-! ### Memory (R18, R40 to R46) -/

/-- The byte at an address; an unlisted address reads 0 (R18). -/
def Memory.read : Memory → Nat → Byte
  | [], _ => 0
  | (k, b) :: m, a => if k = a then b else Memory.read m a

/-- Write a byte, keeping the canonical form: a cell that comes to hold 0 is no longer listed. -/
def Memory.write : Memory → Nat → Byte → Memory
  | [], a, b => if b = 0 then [] else [(a, b)]
  | (k, c) :: m, a, b =>
    if a < k then (if b = 0 then (k, c) :: m else (a, b) :: (k, c) :: m)
    else if a = k then (if b = 0 then m else (a, b) :: m)
    else (k, c) :: Memory.write m a b

/-- The cells of a run of bytes from `base` upward, in canonical form. -/
def Memory.cellsFrom (base : Nat) : List Byte → Memory
  | [] => []
  | b :: bs => if b = 0 then Memory.cellsFrom (base + 1) bs else (base, b) :: Memory.cellsFrom (base + 1) bs

/-- The bytes of the glyph table, glyph 0 first, each top row first (R192 (1)). -/
def glyphBytes (g : GlyphTable) : List Byte := (g.toList.map (·.toList)).flatten

/-- MEM after the boot of R192: the glyph table from 0x000, the image from 0x200, "all other memory stays zero". -/
def Memory.loaded (g : GlyphTable) (image : List Byte) : Memory :=
  Memory.cellsFrom 0 (glyphBytes g) ++ Memory.cellsFrom 0x200 image

/-- The address of the k-th byte of a data access: I + k (R41). Under the default policy `dataFaults` has kept it below
4096, so that the remainder is the sum itself; under wrap12 it is "address taken modulo 4096" (R46, D12). -/
def State.dataAddr (s : State) (k : Nat) : Nat := (s.i.toNat + k) % 4096

/-- CheckData(I, n): `n >= 1` and `I + n - 1 > 0xFFF`, computed without wrap; never under wrap12 (R9, R46). -/
def State.dataFaults (s : State) (n : Nat) : Bool :=
  s.params.dataOob == .fault && decide (1 ≤ n ∧ s.i.toNat + n - 1 > 0xFFF)

/-- CheckData before any write: MemOutOfBounds with nothing written, or the access (R46). -/
def State.withData (s : State) (n : Nat) (access : State → State) : State :=
  if s.dataFaults n then s.halt .memOutOfBounds else access s

/-- MemRead(I + k, 1). -/
def State.readData (s : State) (k : Nat) : Byte := s.mem.read (s.dataAddr k)

/-- The n bytes at I + 0 .. I + n - 1, in ascending order (R45). -/
def State.readBlock (s : State) (n : Nat) : List Byte := (List.range n).map s.readData

/-- MemWrite(I + k, 1, b), MemWrite(I + k + 1, 1, ...), in ascending order (R45). -/
def State.writeBlock (s : State) (k : Nat) : List Byte → State
  | [] => s
  | b :: bs => State.writeBlock { s with mem := s.mem.write (s.dataAddr k) b } (k + 1) bs

/-- V[k] <- the first byte, V[k + 1] <- the next, and so on. -/
def writeRegisters (v : Vector Byte 16) (k : Nat) : List Byte → Vector Byte 16
  | [] => v
  | b :: bs => writeRegisters (v.setIfInBounds k b) (k + 1) bs

/-! ### Display (R19) -/

/-- DISP[y][x]. -/
def Grid.cell (g : Grid) (y : Fin 32) (x : Fin 64) : Bool := g[y.val][x.val]

/-- DISP[y][x] <- b. -/
def Grid.setCell (g : Grid) (y : Fin 32) (x : Fin 64) (b : Bool) : Grid :=
  g.set y.val (g[y.val].set x.val b x.isLt) y.isLt

/-- The grid with every cell 0. -/
def Grid.blank : Grid := Vector.replicate 32 (Vector.replicate 64 false)

/-! ### Keys (R20) -/

/-- KEY[k], one sample. -/
def State.keyDown (s : State) (k : KeyIx) : Bool := s.key[k.val]

/-- The keys pressed in one sample of all 16 flags, in rising order (R143). -/
def State.pressedKeys (s : State) : List KeyIx := allIndices.filter s.keyDown

/-! ### Free values (R123, U2) -/

/-- One sample of RND and the state after it. -/
def State.drawByte (s : State) : Byte × State :=
  (Config.freeByte s.draws, { s with draws := s.draws + 1 })

/-- The key a key-wait stores of those pressed, `first` being the lowest: that one, or under KEYWAIT_PICK = any one of
them, freely chosen (R143 (b), U11). -/
def State.pickKey (s : State) (first : KeyIx) (others : List KeyIx) : KeyIx × State :=
  match s.params.keyPick with
  | .lowest => (first, s)
  | .anyPressed =>
    ((first :: others)[Config.freeIndex s.draws % (others.length + 1)]'(by
        simpa using Nat.mod_lt _ (Nat.succ_pos _)),
      { s with draws := s.draws + 1 })

/-! ### Fetch (R43, R44, R47, R60) -/

/-- A fetch at PC is out of bounds: either byte lies outside MEM, or PC is odd under PC_ALIGN_CHECK (R44, R47). -/
def State.fetchBlocked (s : State) : Bool :=
  decide (s.pc.toNat > 0x0FFE) || (s.params.pcAlignCheck && decide (s.pc.toNat % 2 = 1))

/-- w <- MemRead(PC, 2): MEM[PC] in the high byte, MEM[PC + 1] in the low byte (R43). -/
def State.fetchWord (s : State) : Word :=
  wordOfBytes (s.mem.read s.pc.toNat) (s.mem.read (s.pc.toNat + 1))

/-- report UnknownOpcode(w, a): one event on the report port, nothing else (R9, R166). -/
def State.report (s : State) (w a : Word) : State := { s with reports := ⟨w, a⟩ :: s.reports }

/-- The state in which the very next step fetches and runs the two bytes given: they stand at PC, RUN reads Running, the
execution unit is between instructions and has the next turn. A PC that cannot be fetched from is put at 0x200. This
stands for the load of R192 (notes/assumptions/10.md). -/
def State.placeWord (s : State) (hi lo : Byte) : State :=
  let a : Word := if s.fetchBlocked then 0x200 else s.pc
  { s with
    pc := a
    mem := (s.mem.write a.toNat hi).write (a.toNat + 1) lo
    run := .running
    exec := .runnable
    boot := .started
    agenda := .execUnit :: s.agenda }

end Sys2Proof.Machine
end

