-- ==== Sys2Proof/Machine/Flags.lean ====
section
/-! DEFINITION. Every flag computation of the spec (10_state.md R23, 41_alu.md R100, R112). The one flag is VF = V[15]; a
flag value is the byte 0 or 1. -/

namespace Sys2Proof.Machine

/-- A flag's value as the byte VF holds. -/
def flagByte (f : Bool) : Byte := if f then 1 else 0

/-- Carry: 1 if the unsigned sum exceeds 255 (R106, R112). -/
def carryOut (a b : Byte) : Bool := decide (a.toNat + b.toNat > 255)

/-- The inverse of borrow of a - b: 1 if a >= b (R107, R109, R112). -/
def noBorrow (a b : Byte) : Bool := decide (b.toNat ≤ a.toNat)

/-- The bit a right shift by one shifts out (R108). -/
def lowBit (t : Byte) : Bool := t.getLsbD 0

/-- The bit a left shift by one shifts out (R110). -/
def highBit (t : Byte) : Bool := t.getLsbD 7

/-- Write the result register and VF, in the order of FLAG_WRITE_ORDER: flag last by default, so that with X = 15 VF holds
the flag (R100). -/
def State.writeResultFlag (s : State) (x : RegIx) (result : Byte) (flag : Bool) : State :=
  match s.params.flagOrder with
  | .flagLast => (s.setV x result).setV vf (flagByte flag)
  | .resultLast => (s.setV vf (flagByte flag)).setV x result

/-- Write the result of OR, AND, XOR: in Base VF is reset to 0 as a side effect, in ExtA and ExtB it is not written
(R103 to R105). -/
def State.writeLogic (s : State) (x : RegIx) (result : Byte) : State :=
  match s.variant with
  | .base => s.writeResultFlag x result false
  | .extA => s.setV x result
  | .extB => s.setV x result

end Sys2Proof.Machine
end

