-- ==== Sys2Proof/Machine/Operands.lean ====
section
/-! DEFINITION. Every operand form of the spec (30_encoding.md R65): zero-extended addresses, the shift source and the
font code, which depend on VARIANT, the key index, the indexed jump's sum, the decimal digits, and the advance of I after
a bulk transfer. -/

namespace Sys2Proof.Machine

/-- zext_16(NNN) (R65). -/
def zextAddr (nnn : Addr) : Word := nnn.setWidth 16

/-- zext_16 of a byte (R87, R121). -/
def zextByte (b : Byte) : Word := b.setWidth 16

/-- NNN + V[0], wrapping at 16 bits (R87). -/
def State.indexedTarget (s : State) (nnn : Addr) : Word := zextAddr nnn + zextByte (s.readV 0)

/-- The value SHR and SHL shift: V[Y] in Base, V[X] in ExtA and ExtB (R108, R110). -/
def State.shiftSource (s : State) (x y : RegIx) : Byte :=
  match s.variant with
  | .base => s.readV y
  | .extA => s.readV x
  | .extB => s.readV x

/-- The character code of LD F, Vx: masked to 4 bits in Base, unmasked in ExtA and ExtB (R122). -/
def State.fontCode (s : State) (x : RegIx) : Byte :=
  match s.variant with
  | .base => s.readV x &&& 0x0F
  | .extA => s.readV x
  | .extB => s.readV x

/-- 5 * c, the address of glyph c (R122). -/
def glyphAddress (code : Byte) : Word := 5 * zextByte code

/-- The key SKP and SKNP test: V[X] & 0x0F (R140). -/
def State.keyOperand (s : State) (x : RegIx) : KeyIx := ((s.readV x).extractLsb' 0 4).toFin

/-- Hundreds, tens and ones of an 8-bit value (R150). -/
def decimalDigits (b : Byte) : List Byte := [b / 100, (b / 10) % 10, b % 10]

/-- The advance of I by X + 1 after a bulk transfer: in Base only (R151, R152). -/
def State.advanceIndex (s : State) (x : RegIx) : State :=
  match s.variant with
  | .base => s.setI (s.i + BitVec.ofNat 16 (x.val + 1))
  | .extA => s
  | .extB => s

end Sys2Proof.Machine
end

