-- ==== Sys2Proof/Machine/Alu.lean ====
section
/-! DEFINITION. Register load, arithmetic, logic and shift (41_alu.md). All operands are read before anything is written
(R100); arithmetic is on unsigned bytes modulo 256 (R112). -/

namespace Sys2Proof.Machine

/-- LD Vx, NN (R101). -/
def execLdImm (x : RegIx) (nn : Byte) (s : State) : Host.Outcome State Fault Refusal :=
  .next (s.setV x nn)

/-- ADD Vx, NN (R102): no flag. -/
def execAddImm (x : RegIx) (nn : Byte) (s : State) : Host.Outcome State Fault Refusal :=
  .next (s.setV x (s.readV x + nn))

/-- LD Vx, Vy (R111): no flag in any variant. -/
def execLdReg (x y : RegIx) (s : State) : Host.Outcome State Fault Refusal :=
  .next (s.setV x (s.readV y))

/-- OR Vx, Vy (R103). -/
def execOrReg (x y : RegIx) (s : State) : Host.Outcome State Fault Refusal :=
  .next (s.writeLogic x (s.readV x ||| s.readV y))

/-- AND Vx, Vy (R104). -/
def execAndReg (x y : RegIx) (s : State) : Host.Outcome State Fault Refusal :=
  .next (s.writeLogic x (s.readV x &&& s.readV y))

/-- XOR Vx, Vy (R105). -/
def execXorReg (x y : RegIx) (s : State) : Host.Outcome State Fault Refusal :=
  .next (s.writeLogic x (s.readV x ^^^ s.readV y))

/-- ADD Vx, Vy (R106): the carry is an output only. -/
def execAddReg (x y : RegIx) (s : State) : Host.Outcome State Fault Refusal :=
  .next (s.writeResultFlag x (s.readV x + s.readV y) (carryOut (s.readV x) (s.readV y)))

/-- SUB Vx, Vy (R107): V[X] - V[Y]. -/
def execSubReg (x y : RegIx) (s : State) : Host.Outcome State Fault Refusal :=
  .next (s.writeResultFlag x (s.readV x - s.readV y) (noBorrow (s.readV x) (s.readV y)))

/-- SHR Vx, Vy (R108). -/
def execShrReg (x y : RegIx) (s : State) : Host.Outcome State Fault Refusal :=
  .next (s.writeResultFlag x (s.shiftSource x y >>> 1) (lowBit (s.shiftSource x y)))

/-- SUBN Vx, Vy (R109): V[Y] - V[X]. -/
def execSubnReg (x y : RegIx) (s : State) : Host.Outcome State Fault Refusal :=
  .next (s.writeResultFlag x (s.readV y - s.readV x) (noBorrow (s.readV y) (s.readV x)))

/-- SHL Vx, Vy (R110). -/
def execShlReg (x y : RegIx) (s : State) : Host.Outcome State Fault Refusal :=
  .next (s.writeResultFlag x (s.shiftSource x y <<< 1) (highBit (s.shiftSource x y)))

end Sys2Proof.Machine
end

