-- ==== Sys2Proof/Machine/Control.lean ====
section
/-! DEFINITION. Control transfer (40_control_transfer.md). PC is the already advanced value throughout (30_encoding.md
R60): the address of the instruction plus 2. -/

namespace Sys2Proof.Machine

/-- RET (R80): StackUnderflow on the empty stack, else PC <- the entry uncovered. -/
def execRet (s : State) : Host.Outcome State Fault Refusal :=
  match s.pop with
  | none => .next (s.halt .stackUnderflow)
  | some (a, t) => .next (t.setPc a)

/-- JP NNN (R81). -/
def execJp (nnn : Addr) (s : State) : Host.Outcome State Fault Refusal :=
  .next (s.setPc (zextAddr nnn))

/-- CALL NNN (R82): StackOverflow on the full stack, else push the advanced PC and jump. -/
def execCall (nnn : Addr) (s : State) : Host.Outcome State Fault Refusal :=
  match s.push s.pc with
  | none => .next (s.halt .stackOverflow)
  | some t => .next (t.setPc (zextAddr nnn))

/-- SE Vx, NN (R83). -/
def execSeImm (x : RegIx) (nn : Byte) (s : State) : Host.Outcome State Fault Refusal :=
  .next (s.skipIf (s.readV x == nn))

/-- SNE Vx, NN (R84). -/
def execSneImm (x : RegIx) (nn : Byte) (s : State) : Host.Outcome State Fault Refusal :=
  .next (s.skipIf (s.readV x != nn))

/-- SE Vx, Vy (R85). -/
def execSeReg (x y : RegIx) (s : State) : Host.Outcome State Fault Refusal :=
  .next (s.skipIf (s.readV x == s.readV y))

/-- SNE Vx, Vy (R86). -/
def execSneReg (x y : RegIx) (s : State) : Host.Outcome State Fault Refusal :=
  .next (s.skipIf (s.readV x != s.readV y))

/-- JP V0, NNN (R87): V[0] in every variant. -/
def execJpV0 (nnn : Addr) (s : State) : Host.Outcome State Fault Refusal :=
  .next (s.setPc (s.indexedTarget nnn))

end Sys2Proof.Machine
end

