-- ==== Sys2Proof/Machine/Display.lean ====
section
/-! DEFINITION. The display instructions and the sprite compositer (43_display.md). -/

namespace Sys2Proof.Machine

/-- One pixel of DRW: the AND path records a collision, the XOR path computes the new cell (R131). -/
def drawPixel (y : Fin 32) (x : Fin 64) (bit : Bool) (acc : Grid × Bool) : Grid × Bool :=
  (acc.1.setCell y x (acc.1.cell y x ^^ bit), acc.2 || (acc.1.cell y x && bit))

/-- The columns from `col` on of one sprite row, `left` of them still to draw: column `col` shows bit 7 - col and falls on
display column (x0 + col) mod 64 (R131). -/
def drawColumns (y : Fin 32) (x0 : Nat) (b : Byte) (col : Nat) : Nat → Grid × Bool → Grid × Bool
  | 0, acc => acc
  | left + 1, acc =>
    drawColumns y x0 b (col + 1) left
      (drawPixel y (Fin.ofNat 64 (x0 + col)) (b.getLsbD (7 - col)) acc)

/-- The rows of a sprite from `row` on: row `row` falls on display row (y0 + row) mod 32 (R131). -/
def drawRows (x0 y0 row : Nat) : List Byte → Grid × Bool → Grid × Bool
  | [], acc => acc
  | b :: bs, acc => drawRows x0 y0 (row + 1) bs (drawColumns (Fin.ofNat 32 (y0 + row)) x0 b 0 8 acc)

/-- The whole sprite drawn onto a grid: the new grid, and whether any collision occurred (R131). -/
def drawSprite (g : Grid) (x0 y0 : Nat) (sprite : List Byte) : Grid × Bool :=
  drawRows x0 y0 0 sprite (g, false)

/-- CLS (R130). -/
def execCls (s : State) : Host.Outcome State Fault Refusal :=
  .next { s with disp := Grid.blank }

/-- DRW once its bytes are known to be in memory: draw, then VF <- the collision (R131). -/
def State.draw (x y : RegIx) (n : Nat) (s : State) : State :=
  let drawn := drawSprite s.disp (s.readV x).toNat (s.readV y).toNat (s.readBlock n)
  State.setV { s with disp := drawn.1 } vf (flagByte drawn.2)

/-- DRW Vx, Vy, N (R131). -/
def execDrw (x y : RegIx) (n : Fin 16) (s : State) : Host.Outcome State Fault Refusal :=
  .next (s.withData n.val (State.draw x y n.val))

end Sys2Proof.Machine
end

