-- ==== Sys2Proof/Machine/IndexRandom.lean ====
section
/-! DEFINITION. Index register and random (42_index_random.md). None writes VF as a flag. -/

namespace Sys2Proof.Machine

/-- LD I, NNN (R120). -/
def execLdI (nnn : Addr) (s : State) : Host.Outcome State Fault Refusal :=
  .next (s.setI (zextAddr nnn))

/-- ADD I, Vx (R121): wrapping, no flag. -/
def execAddI (x : RegIx) (s : State) : Host.Outcome State Fault Refusal :=
  .next (s.setI (s.i + zextByte (s.readV x)))

/-- LD F, Vx (R122). -/
def execLdF (x : RegIx) (s : State) : Host.Outcome State Fault Refusal :=
  .next (s.setI (glyphAddress (s.fontCode x)))

/-- RND Vx, NN (R123): one free 8-bit draw AND NN. -/
def execRnd (x : RegIx) (nn : Byte) (s : State) : Host.Outcome State Fault Refusal :=
  .next (s.drawByte.2.setV x (s.drawByte.1 &&& nn))

end Sys2Proof.Machine
end

