-- ==== Sys2Proof/Machine/KeysTimers.lean ====
section
/-! DEFINITION. Key and timer instructions (44_keys_timers.md). Each access to KEY, DT or ST is one sample or one write. -/

namespace Sys2Proof.Machine

/-- SKP Vx (R140). -/
def execSkp (x : RegIx) (s : State) : Host.Outcome State Fault Refusal :=
  .next (s.skipIf (s.keyDown (s.keyOperand x)))

/-- SKNP Vx (R141). -/
def execSknp (x : RegIx) (s : State) : Host.Outcome State Fault Refusal :=
  .next (s.skipIf (!s.keyDown (s.keyOperand x)))

/-- LD Vx, K, the issue step (R142); the samples that end it are `waitStep`'s (R143). -/
def execLdVxK (x : RegIx) (s : State) : Host.Outcome State Fault Refusal :=
  .next { s with exec := .waitK x }

/-- LD Vx, DT (R144). -/
def execLdVxDt (x : RegIx) (s : State) : Host.Outcome State Fault Refusal :=
  .next (s.setV x s.dt)

/-- LD DT, Vx (R145). -/
def execLdDtVx (x : RegIx) (s : State) : Host.Outcome State Fault Refusal :=
  .next { s with dt := s.readV x }

/-- LD ST, Vx (R146). -/
def execLdStVx (x : RegIx) (s : State) : Host.Outcome State Fault Refusal :=
  .next { s with st := s.readV x }

end Sys2Proof.Machine
end

