-- ==== Sys2Proof/Machine/Transfer.lean ====
section
/-! DEFINITION. Memory transfer: BCD store, bulk store, bulk load (45_memory_transfer.md). The check of the whole range
comes before any write (20_memory.md R46). -/

namespace Sys2Proof.Machine

/-- LD B, Vx (R150): hundreds, tens, ones at I, I + 1, I + 2; I unchanged in every variant. -/
def execLdB (x : RegIx) (s : State) : Host.Outcome State Fault Refusal :=
  .next (s.withData 3 fun t => t.writeBlock 0 (decimalDigits (t.readV x)))

/-- LD [I], Vx (R151): V[0] .. V[X] to I .. I + X, then in Base I <- I + X + 1. -/
def execLdIndVx (x : RegIx) (s : State) : Host.Outcome State Fault Refusal :=
  .next (s.withData (x.val + 1) fun t => (t.writeBlock 0 (t.v.toList.take (x.val + 1))).advanceIndex x)

/-- LD Vx, [I] (R152): V[0] .. V[X] from I .. I + X, then in Base I <- I + X + 1. -/
def execLdVxInd (x : RegIx) (s : State) : Host.Outcome State Fault Refusal :=
  .next (s.withData (x.val + 1) fun t =>
    State.advanceIndex { t with v := writeRegisters t.v 0 (t.readBlock (x.val + 1)) } x)

end Sys2Proof.Machine
end

