-- ==== Sys2Proof/Machine/Agents.lean ====
section
/-! DEFINITION. The four agents of 00_scope.md R7: the execution unit between instructions (30_encoding.md R60) and in a
key-wait (44_keys_timers.md R143), the two decrementers (60_exceptions.md R175), and the host under its duties (R5). -/

namespace Sys2Proof.Machine

/-! ### The execution unit -/

/-- The state inside an instruction: the fetch has advanced PC (R60). -/
def State.fetched (s : State) : State := s.advancePc

/-- An unknown opcode: a no-operation that is reported with the word and its address (R70, R166). `s` is the state before
the fetch. -/
def unknownStep (s : State) : State := s.fetched.report s.fetchWord s.pc

/-- Fetch, decode and run one instruction, RUN being Running (R60). -/
def runInstruction (s : State) : Host.Outcome State Fault Refusal :=
  if s.fetchBlocked then .next (s.halt .pcOutOfBounds)
  else
    match decodeFor s.params s.fetchWord with
    | .ok i => exec i s.fetched
    | .error _ => .next (unknownStep s)

/-- ExecStep (R60): the run status is sampled once, before the PC bound (R168, D10). -/
def execStep (s : State) : Host.Outcome State Fault Refusal :=
  match s.run with
  | .stopped => .next (s.halt .stopped)
  | .paused => .next s
  | .starting => .next s
  | .running => runInstruction s

/-- WaitStep (R143): one sample of RUN and of KEY. Paused and Starting do not suspend it; Stopped ends it without writing
V[x]. -/
def waitStep (x : RegIx) (s : State) : State :=
  match s.run with
  | .stopped => s.halt .stopped
  | .paused | .starting | .running =>
    match s.pressedKeys with
    | [] => s
    | k :: ks =>
      let picked := s.pickKey k ks
      { picked.2.setV x (BitVec.ofNat 8 picked.1.val) with exec := .runnable }

/-- The turn of the execution unit: by EXEC (R27). A halted unit has no step (R163). -/
def execTurn (s : State) : Host.Outcome State Fault Refusal :=
  match s.exec with
  | .halted c => .fault (.halted c)
  | .waitK x => .next (waitStep x s)
  | .runnable => execStep s

/-! ### The decrementers -/

/-- The decrement of a counter that is "never negative; clamped at 0" (R21, R175). -/
def countDown (b : Byte) : Byte := if b = 0 then 0 else b - 1

/-- TimerStep of the delay timer, one per TICK_DT (R175). A tick that finds the decrementer dead changes nothing (R28;
notes/assumptions/20.md). EXEC takes no part: DT is decremented after a halt just as before one. DESIGN CHOICE: R164 and
FLT-7 say so, while D14, U17 and C7 would leave DT after a halt at any value not above the one at the halt
(notes/assumptions/24.md). -/
def delayTick (s : State) : State :=
  if s.dtAlive then
    match s.run with
    | .stopped => { s with dtAlive := false }
    | .running => { s with dt := countDown s.dt }
    | .paused => s
    | .starting => s
  else s

/-- TimerStep of the sound timer, one per TICK_ST (R175). After a halt ST is decremented just as before one, where D14, U17
and C7 would leave it at any value not above the one at the halt: DESIGN CHOICE (notes/assumptions/24.md). -/
def soundTick (s : State) : State :=
  if s.stAlive then
    match s.run with
    | .stopped => { s with stAlive := false }
    | .running => { s with st := countDown s.st }
    | .paused => s
    | .starting => s
  else s

/-- A tick event of either timer; the two are independent (R175, D22). -/
def timerTick : Timer → State → State
  | .delay, s => delayTick s
  | .sound, s => soundTick s

/-! ### The host -/

/-- The host sets or clears one key (R5, R20). -/
def hostKey (k : KeyIx) (down : Bool) (s : State) : State := { s with key := s.key.set k.val down k.isLt }

/-- The boot of R192 is complete: MEM is loaded and VARIANT fixed. -/
def State.bootDone (s : State) : Bool := s.boot == .strapped || s.boot == .started

/-- MEM may be loaded, or loaded again: VARIANT is not fixed yet (R192's order), and RUN can still read Running. -/
def State.mayLoad (s : State) : Bool := (s.boot == .fresh || s.boot == .loaded) && s.run != .stopped

/-- VARIANT may be fixed: MEM is loaded (R192's order), it is not fixed yet ("selected once", R26), and RUN can still read
Running. -/
def State.mayStrap (s : State) : Bool := s.boot == .loaded && s.run != .stopped

/-- The host writes RUN: any change but out of Stopped (R5, R174), Running only once MEM is loaded and VARIANT fixed (R5,
R192). -/
def hostRun (r : RunStatus) (s : State) : Host.Outcome State Fault Refusal :=
  if s.run = .stopped ∧ r ≠ .stopped then .refused .leavesStopped
  else if r = .running ∧ s.bootDone = false then .refused .runBeforeBoot
  else .next { s with run := r, boot := if r = .running then .started else s.boot }

/-- The loader places the glyph table and the image before start; an image over 3584 bytes is rejected (R192, R193). -/
def hostLoad (image : List Byte) (s : State) : Host.Outcome State Fault Refusal :=
  if s.mayLoad then
    if imageWf image then .next { s with mem := Memory.loaded s.params.glyphs image, boot := .loaded }
    else .refused .imageTooLong
  else .refused .loadOutOfTurn

/-- The loader fixes VARIANT, once, after the load and before start; code 3 is refused (R26, R192). -/
def hostStrap (code : BitVec 2) (s : State) : Host.Outcome State Fault Refusal :=
  if s.mayStrap then
    match variantOfCode code with
    | some v => .next { s with variant := v, boot := .strapped }
    | none => .refused .reservedVariant
  else .refused .strapOutOfTurn

/-! ### One move -/

/-- The move `m`, made in the state `s`. -/
def makeMove (m : Move) (s : State) : Host.Outcome State Fault Refusal :=
  match m with
  | .execUnit => execTurn s
  | .tick t => .next (timerTick t s)
  | .setKey k down => .next (hostKey k down s)
  | .setRun r => hostRun r s
  | .load image => hostLoad image s
  | .strap code => hostStrap code s

/-- The move whose turn it is: the next of the agenda, the execution unit when the agenda is empty. -/
def State.nextMove (s : State) : Move :=
  match s.agenda with
  | [] => .execUnit
  | m :: _ => m

/-- The state with that move taken off the agenda. -/
def State.popAgenda (s : State) : State := { s with agenda := s.agenda.tail }

end Sys2Proof.Machine
end

