-- ==== Sys2Proof/Machine/Step.lean ====
section
/-! DEFINITION. One step of the machine: one move of one agent, indivisible towards every other (00_scope.md R7,
20_memory.md R50). -/

namespace Sys2Proof.Machine

/-- The step: the move whose turn it is. -/
def step (s : State) : Host.Outcome State Fault Refusal := makeMove s.nextMove s.popAgenda

/-- The state with an instruction of the opcode table where the very next step fetches it and runs it. -/
def State.withFetchWord (s : State) (nbits w : Nat) : State :=
  match tableBytes nbits w with
  | hi :: lo :: _ => s.placeWord hi lo
  | [_] => s
  | [] => s

end Sys2Proof.Machine
end

