-- ==== Sys2Proof/Safety.lean ====
section
/-! DEFINITION. What claims are stated in: a safe run (70_reset_and_hazards.md R194), the invariants of the machine, and
the footprint of an instruction, that is, all it may write. -/

namespace Sys2Proof.Machine

/-! ### Safe runs (R194) -/

/-- A cause the spec recommends counting as a fault: all but Stopped (R194, the conservative reading of C1). -/
def Cause.isFault : Cause → Bool
  | .stopped => false
  | .pcOutOfBounds | .stackOverflow | .stackUnderflow | .memOutOfBounds => true

/-- The execution unit has not halted, or it has halted because the controller stopped it. -/
def State.Safe (s : State) : Prop := ∀ c, s.exec = .halted c → c.isFault = false

/-- No unknown opcode has been reported, the extra premise or conclusion R166 offers a claim. -/
def State.NoUnknownOpcode (s : State) : Prop := s.reports = []

/-- Every state a run of `k` steps passes through is safe, and the run is not stopped. -/
def SafeRun : Nat → State → Prop
  | 0, s => s.Safe
  | k + 1, s => s.Safe ∧ ∃ t, step s = .next t ∧ SafeRun k t

/-! ### Invariants -/

/-- PC and the return addresses stay where R14 and R82 say a run keeps them: PC at most 0x10FE, a pushed value at most
0x1000, and no more entries than STACK_USABLE. -/
structure State.AddressesInRange (s : State) : Prop where
  pc_le : s.pc.toNat ≤ 0x10FE
  entry_le : ∀ k : Fin 16, k.val < s.sp.val → (s.stk[k.val]).toNat ≤ 0x1000
  sp_le : s.sp.val ≤ s.params.stackUsable.entries

/-- What makes Stopped terminal (R174) and the boot come first (R5): an agent is dead only if RUN is Stopped, RUN reads
Running only after the boot, and a halted unit has either been started or seen Stopped. -/
structure State.StopLatched (s : State) : Prop where
  delay_dead : s.dtAlive = false → s.run = .stopped
  sound_dead : s.stAlive = false → s.run = .stopped
  stopped_seen : s.exec = .halted .stopped → s.run = .stopped
  running_started : s.run = .running → s.boot = .started
  halted_over : ∀ c, s.exec = .halted c → s.boot = .started ∨ s.run = .stopped

/-! ### Footprints -/

/-- What may be written: the registers, the stack cells and the memory bytes that satisfy a predicate, and whole elements.
Nothing by default. The elements it does not name (KEY, RUN, VARIANT, the decrementers' life, the report trace, and the
model's own boot, params, agenda) no instruction writes. -/
structure Footprint where
  v : RegIx → Prop := fun _ => False
  i : Prop := False
  pc : Prop := False
  sp : Prop := False
  stk : Fin 16 → Prop := fun _ => False
  mem : Nat → Prop := fun _ => False
  disp : Prop := False
  dt : Prop := False
  st : Prop := False
  exec : Prop := False
  draws : Prop := False

/-- `t` agrees with `s` outside the footprint. -/
structure Footprint.Frames (f : Footprint) (s t : State) : Prop where
  v : ∀ r, ¬ f.v r → t.readV r = s.readV r
  i : ¬ f.i → t.i = s.i
  pc : ¬ f.pc → t.pc = s.pc
  sp : ¬ f.sp → t.sp = s.sp
  stk : ∀ k : Fin 16, ¬ f.stk k → t.stk[k.val] = s.stk[k.val]
  mem : ∀ a, ¬ f.mem a → t.mem.read a = s.mem.read a
  disp : ¬ f.disp → t.disp = s.disp
  dt : ¬ f.dt → t.dt = s.dt
  st : ¬ f.st → t.st = s.st
  exec : ¬ f.exec → t.exec = s.exec
  draws : ¬ f.draws → t.draws = s.draws
  key : t.key = s.key
  run : t.run = s.run
  variant : t.variant = s.variant
  dtAlive : t.dtAlive = s.dtAlive
  stAlive : t.stAlive = s.stAlive
  reports : t.reports = s.reports
  boot : t.boot = s.boot
  params : t.params = s.params
  agenda : t.agenda = s.agenda

/-- The bytes of a data access of n bytes at I (R41), at the addresses the meanings use. -/
def State.dataBytes (s : State) (n : Nat) (a : Nat) : Prop := ∃ k, k < n ∧ a = s.dataAddr k

/-- The stack is full (R82). -/
def State.stackFull (s : State) : Prop := s.params.stackUsable.entries ≤ s.sp.val

/-- All an instruction may write in the state it runs in, from the rules of 40 to 45 and 10_state.md R12, R14, R23. -/
def footprint (i : Instr) (s : State) : Footprint :=
  match i with
  | .cls => { disp := True }
  | .ret => { pc := s.sp ≠ 0, sp := s.sp ≠ 0, exec := s.sp = 0 }
  | .jp _ | .jpV0 _ => { pc := True }
  | .call _ =>
    { pc := ¬ s.stackFull, sp := ¬ s.stackFull, stk := fun k => ¬ s.stackFull ∧ k.val = s.sp.val,
      exec := s.stackFull }
  | .seImm x nn => { pc := s.readV x = nn }
  | .sneImm x nn => { pc := s.readV x ≠ nn }
  | .seReg x y => { pc := s.readV x = s.readV y }
  | .sneReg x y => { pc := s.readV x ≠ s.readV y }
  | .skp x => { pc := s.keyDown (s.keyOperand x) = true }
  | .sknp x => { pc := s.keyDown (s.keyOperand x) = false }
  | .ldImm x _ | .addImm x _ | .ldReg x _ | .ldVxDt x => { v := fun r => r = x }
  | .orReg x _ | .andReg x _ | .xorReg x _ => { v := fun r => r = x ∨ (s.variant = .base ∧ r = vf) }
  | .addReg x _ | .subReg x _ | .shrReg x _ | .subnReg x _ | .shlReg x _ => { v := fun r => r = x ∨ r = vf }
  | .ldI _ | .addI _ | .ldF _ => { i := True }
  | .rnd x _ => { v := fun r => r = x, draws := True }
  | .drw _ _ n =>
    { v := fun r => s.dataFaults n.val = false ∧ r = vf, disp := s.dataFaults n.val = false,
      exec := s.dataFaults n.val = true }
  | .ldVxK _ => { exec := True }
  | .ldDtVx _ => { dt := True }
  | .ldStVx _ => { st := True }
  | .ldB _ =>
    { mem := fun a => s.dataFaults 3 = false ∧ s.dataBytes 3 a, exec := s.dataFaults 3 = true }
  | .ldIndVx x =>
    { mem := fun a => s.dataFaults (x.val + 1) = false ∧ s.dataBytes (x.val + 1) a,
      i := s.dataFaults (x.val + 1) = false ∧ s.variant = .base, exec := s.dataFaults (x.val + 1) = true }
  | .ldVxInd x =>
    { v := fun r => s.dataFaults (x.val + 1) = false ∧ r ≤ x,
      i := s.dataFaults (x.val + 1) = false ∧ s.variant = .base, exec := s.dataFaults (x.val + 1) = true }

end Sys2Proof.Machine
end

