-- ==== Sys2Proof/Certificates/Slice0/Obligations.lean ====
section
/-! DEFINITION. The statements for the provers, from the numbered rules of spec/. The first part names the terms they are
written in. Every instruction's statement says that `exec` answers a next state, what the state holds, and what it leaves
alone (`Footprint.Frames`). -/

namespace Sys2Proof.Machine

/-! ### Terms of the statements -/

/-- It is the execution unit's turn, it is between instructions, RUN reads Running, and PC can be fetched from: both bytes
inside MEM (R47), and PC even where PC_ALIGN_CHECK asks for it (R44). -/
structure State.Fetches (s : State) : Prop where
  turn : s.nextMove = .execUnit
  runnable : s.exec = .runnable
  running : s.run = .running
  inside : s.pc.toNat ≤ 0x0FFE
  aligned : s.params.pcAlignCheck = true → s.pc.toNat % 2 = 0

/-- `w` is the word at PC: MEM[PC] * 256 + MEM[PC + 1] (R43). -/
def State.WordAtPc (s : State) (w : Word) : Prop :=
  w.toNat = (s.mem.read s.pc.toNat).toNat * 256 + (s.mem.read (s.pc.toNat + 1)).toNat

/-- The machine fetches at PC and runs the instruction `i` in this step. -/
def State.Runs (s : State) (i : Instr) : Prop :=
  s.Fetches ∧ ∃ w, s.WordAtPc w ∧ decodeFor s.params w = .ok i

/-- The n bytes of a data access at I lie inside MEM, or the policy takes addresses modulo 4096 (R46). -/
def State.InMemory (s : State) (n : Nat) : Prop :=
  n = 0 ∨ s.i.toNat + n ≤ 4096 ∨ s.params.dataOob = .wrap12

/-- V[x] and VF after an instruction that writes a result and a flag: two registers when x is not VF; when x is VF, the
one of the two that FLAG_WRITE_ORDER writes last, by default the flag (R100). -/
def WritesResultAndFlag (s t : State) (x : RegIx) (result flag : Nat) : Prop :=
  (x ≠ vf → (t.readV x).toNat = result ∧ (t.readV vf).toNat = flag) ∧
  (x = vf → s.params.flagOrder = .flagLast → (t.readV vf).toNat = flag) ∧
  (x = vf → s.params.flagOrder = .resultLast → (t.readV vf).toNat = result)

/-- V[x] and VF after OR, AND, XOR: in Base the result and the flag 0, else the result alone (R103). -/
def WritesLogic (s t : State) (x : RegIx) (result : Byte) : Prop :=
  (s.variant = .base → WritesResultAndFlag s t x result.toNat 0) ∧
  (s.variant ≠ .base → t.readV x = result)

/-- The value SHR and SHL shift (R108). -/
def ShiftSource (s : State) (x y : RegIx) : Byte := if s.variant = .base then s.readV y else s.readV x

/-- Display row r of a sprite drawn at height y0, and display column c of one drawn at x0 (R131). -/
def spriteRow (y0 : Byte) (r : Nat) : Fin 32 := Fin.ofNat 32 (y0.toNat + r)

/-- See `spriteRow`. -/
def spriteColumn (x0 : Byte) (c : Nat) : Fin 64 := Fin.ofNat 64 (x0.toNat + c)

/-- The bit of the sprite at I in row r, column c; column 0 is bit 7 (R131). -/
def State.spriteBit (s : State) (r c : Nat) : Bool := (s.mem.read (s.dataAddr r)).getLsbD (7 - c)

/-- How many bits of a byte are 1. -/
def onesOf (b : Byte) : Nat := (List.range 8).countP (fun c => b.getLsbD c)

/-- Whether the condition of a skip holds (R83 to R86, R140, R141); nothing for an instruction that is no skip. -/
def State.skipCondition (s : State) : Instr → Option Bool
  | .seImm x nn => some (decide (s.readV x = nn))
  | .sneImm x nn => some (decide (s.readV x ≠ nn))
  | .seReg x y => some (decide (s.readV x = s.readV y))
  | .sneReg x y => some (decide (s.readV x ≠ s.readV y))
  | .skp x => some (s.key[(s.readV x).toNat % 16])
  | .sknp x => some (!s.key[(s.readV x).toNat % 16])
  | .cls | .ret | .jp _ | .call _ | .ldImm _ _ | .addImm _ _ | .ldReg _ _ | .orReg _ _ | .andReg _ _ | .xorReg _ _
  | .addReg _ _ | .subReg _ _ | .shrReg _ _ | .subnReg _ _ | .shlReg _ _ | .ldI _ | .jpV0 _ | .rnd _ _ | .drw _ _ _
  | .ldVxDt _ | .ldVxK _ | .ldDtVx _ | .ldStVx _ | .addI _ | .ldF _ | .ldB _ | .ldIndVx _ | .ldVxInd _ => none

/-- Everything the execution unit alone writes is the same in both states (R164). -/
structure SameExecutionState (s t : State) : Prop where
  v : t.v = s.v
  i : t.i = s.i
  pc : t.pc = s.pc
  sp : t.sp = s.sp
  stk : t.stk = s.stk
  mem : ∀ a, t.mem.read a = s.mem.read a
  disp : t.disp = s.disp
  reports : t.reports = s.reports

end Sys2Proof.Machine

open Sys2Proof Sys2Proof.Machine

/-! ### Encoding (30_encoding.md) -/

/-- R66: the decoder reads the canonical encoding of every instruction the machine has as that instruction, at every value
of its operands; the one instruction it may lack, 8XY0 (R111), is then an unknown opcode. -/
def Obligations.DecodingAnEncodingGivesTheInstruction : Prop :=
  ∀ (p : Params) (i : Instr),
    (i.wf p = true → decodeFor p (encode i) = .ok i) ∧
    (i.wf p = false → decodeFor p (encode i) = .error (.unknownOpcode (encode i)))

/-- R66, R68: a word that decodes to an instruction is its encoding, but for the bits R68 calls ignored: X in family 0, N in
families 5 and 9. -/
def Obligations.EncodingADecodedWordGivesItsCanonicalForm : Prop :=
  ∀ (w : Word) (i : Instr), decodeWord w = .ok i →
    encode i = w ∨
    ((i = .cls ∨ i = .ret) ∧ encode i = w &&& 0xF0FF#16) ∨
    ((∃ x y, i = .seReg x y ∨ i = .sneReg x y) ∧ encode i = w &&& 0xFFF0#16)

/-- R70's table: the words that decode to no instruction are exactly these. -/
def Obligations.UnknownWordsAreExactlyThese : Prop :=
  ∀ w : Word, decodeWord w = .error (.unknownOpcode w) ↔
    (family w = 0x0#4 ∧ fieldNN w ≠ 0xE0#8 ∧ fieldNN w ≠ 0xEE#8) ∨
    (family w = 0x8#4 ∧ (fieldN w = 8 ∨ fieldN w = 9 ∨ fieldN w = 10 ∨ fieldN w = 11 ∨ fieldN w = 12 ∨
      fieldN w = 13 ∨ fieldN w = 15)) ∨
    (family w = 0xE#4 ∧ fieldNN w ≠ 0x9E#8 ∧ fieldNN w ≠ 0xA1#8) ∨
    (family w = 0xF#4 ∧ fieldNN w ≠ 0x07#8 ∧ fieldNN w ≠ 0x0A#8 ∧ fieldNN w ≠ 0x15#8 ∧ fieldNN w ≠ 0x18#8 ∧
      fieldNN w ≠ 0x1E#8 ∧ fieldNN w ≠ 0x29#8 ∧ fieldNN w ≠ 0x33#8 ∧ fieldNN w ≠ 0x55#8 ∧ fieldNN w ≠ 0x65#8)

/-- R68, R111: what the parameters STRICT_CANONICAL and HAS_8XY0 take out of the decoder, and that they change nothing
else. -/
def Obligations.ParametersOnlyTakeWordsOutOfTheDecoder : Prop :=
  ∀ (p : Params) (w : Word),
    decodeFor p w =
      if (p.has8xy0 = false ∧ family w = 0x8#4 ∧ fieldN w = 0) ∨
          (p.strictCanonical = true ∧
            (family w = 0x0#4 ∧ fieldX w ≠ 0 ∨ (family w = 0x5#4 ∨ family w = 0x9#4) ∧ fieldN w ≠ 0))
      then .error (.unknownOpcode w) else decodeWord w

/-- Words written out from R66's table, one or more a family. -/
def Obligations.SampleWordsDecode : Prop :=
  decodeWord 0x00E0 = .ok .cls ∧ decodeWord 0x00EE = .ok .ret ∧ decodeWord 0x1ABC = .ok (.jp 0xABC) ∧
  decodeWord 0x312A = .ok (.seImm 1 0x2A) ∧ decodeWord 0x71FF = .ok (.addImm 1 0xFF) ∧
  decodeWord 0x8126 = .ok (.shrReg 1 2) ∧ decodeWord 0xA300 = .ok (.ldI 0x300) ∧
  decodeWord 0xD125 = .ok (.drw 1 2 5) ∧ decodeWord 0xE09E = .ok (.skp 0) ∧ decodeWord 0xF265 = .ok (.ldVxInd 2) ∧
  decodeWord 0x8128 = .error (.unknownOpcode 0x8128)

/-! ### One step of the machine (R7, R60, R163 to R175) -/

/-- R60: with PC inside MEM and RUN = Running, the step runs the instruction whose word stands at PC, in the state whose PC
is already advanced by 2. -/
def Obligations.StepRunsTheFetchedInstruction : Prop :=
  ∀ (s : State) (w : Word) (i : Instr), s.Fetches → s.WordAtPc w → decodeFor s.params w = .ok i →
    step s = exec i { s with agenda := s.agenda.tail, pc := s.pc + 2 }

/-- R70, R166: an unknown opcode advances PC by 2 and reports the word with its address; nothing else changes. -/
def Obligations.UnknownOpcodeIsAReportedNoOperation : Prop :=
  ∀ (s : State) (w : Word) (e : DecodeError), s.Fetches → s.WordAtPc w → decodeFor s.params w = .error e →
    step s = .next
      { s with agenda := s.agenda.tail, pc := s.pc + 2, reports := ⟨w, s.pc⟩ :: s.reports }

/-- R60, R168: the run status is looked at before the PC bound, and the PC bound before the instruction: Stopped halts with
cause 1, Paused and Starting idle, and Running with a PC that cannot be fetched from halts with cause 2, PC unchanged.
HALT_CAUSE shows the code. -/
def Obligations.RunStatusComesBeforeThePcBound : Prop :=
  ∀ s : State, s.nextMove = .execUnit → s.exec = .runnable →
    (s.run = .stopped →
      ∃ t, step s = .next t ∧ t = { s with agenda := s.agenda.tail, exec := .halted .stopped } ∧ t.haltCause = 1) ∧
    (s.run = .paused ∨ s.run = .starting → step s = .next { s with agenda := s.agenda.tail }) ∧
    (s.run = .running → s.pc.toNat > 0x0FFE ∨ (s.params.pcAlignCheck = true ∧ s.pc.toNat % 2 = 1) →
      ∃ t, step s = .next t ∧ t = { s with agenda := s.agenda.tail, exec := .halted .pcOutOfBounds } ∧
        t.haltCause = 2)

/-- R173: once RUN reads Stopped, the next step of the execution unit, between instructions or in a key-wait, halts it with
cause 1, and nothing else changes. -/
def Obligations.StoppedHaltsAtTheNextStep : Prop :=
  ∀ s : State, s.nextMove = .execUnit → s.run = .stopped → (s.exec = .runnable ∨ ∃ x, s.exec = .waitK x) →
    ∃ t, step s = .next t ∧ t = { s with agenda := s.agenda.tail, exec := .halted .stopped } ∧ t.haltCause = 1

/-- R88: a skip whose condition holds leaves PC four past its own address, one whose condition fails two past it, and neither
changes anything else; a skip taken at 0x0FFC or 0x0FFE leaves a PC that cannot be fetched from. -/
def Obligations.SkipLaw : Prop :=
  ∀ (s : State) (w : Word) (i : Instr) (holds : Bool), s.Fetches → s.WordAtPc w → decodeFor s.params w = .ok i →
    s.skipCondition i = some holds →
    ∃ t, step s = .next t ∧
      t = { s with agenda := s.agenda.tail, pc := if holds then s.pc + 4 else s.pc + 2 } ∧
      (holds = true → s.pc = 0x0FFC ∨ s.pc = 0x0FFE → t.pc.toNat > 0x0FFE ∧ t.fetchBlocked = true)

/-- R163: a halted execution unit takes no further step. That its turn then answers a fault is the model's choice
(notes/assumptions/4.md). -/
def Obligations.HaltedUnitTakesNoStep : Prop :=
  ∀ (s : State) (c : Cause), s.nextMove = .execUnit → s.exec = .halted c → step s = .fault (.halted c)

/-- R164: after the halt V, I, PC, SP, STK, MEM and DISP never change again, whatever the other agents do. The premise is an
invariant (`StepKeepsStopLatched`). -/
def Obligations.HaltFreezesTheExecutionState : Prop :=
  ∀ (s t : State) (c : Cause), s.exec = .halted c → (s.boot = .started ∨ s.run = .stopped) → step s = .next t →
    t.exec = .halted c ∧ SameExecutionState s t

/-- R164: DT and ST go on after a halt: a tick of a live decrementer decrements as if nothing had happened, and the halt
cause stays on its port. The exact decrement is the model's choice where D14, U17 and C7 leave the timers after a halt open
(notes/assumptions/24.md). -/
def Obligations.TimersRunOnAfterAHalt : Prop :=
  ∀ (s : State) (c : Cause), s.exec = .halted c → s.run = .running →
    (s.nextMove = .tick .delay → s.dtAlive = true →
      ∃ t, step s = .next t ∧ t.dt.toNat = s.dt.toNat - 1 ∧ t.haltCause = c.code ∧ t.haltCause ≠ 0) ∧
    (s.nextMove = .tick .sound → s.stAlive = true →
      ∃ t, step s = .next t ∧ t.st.toNat = s.st.toNat - 1 ∧ t.haltCause = c.code ∧ t.haltCause ≠ 0)

/-- R174: once RUN is Stopped it stays Stopped, no instruction executes and no timer decrements, over a run of any length
under any schedule. -/
def Obligations.StoppedIsTerminal : Prop :=
  ∀ (k : Nat) (s t : State), s.run = .stopped → Host.Core.run Sys2Proof.core k s = .next t →
    t.run = .stopped ∧ t.dt = s.dt ∧ t.st = s.st ∧ SameExecutionState s t

/-- R6, R20, R26: the block writes none of RUN, KEY, VARIANT: each changes only by the host's own move; and the parameters
never change. -/
def Obligations.OnlyTheHostWritesItsInputs : Prop :=
  ∀ s t : State, step s = .next t →
    (t.run ≠ s.run → ∃ r, s.nextMove = .setRun r ∧ t.run = r) ∧
    (t.key ≠ s.key → ∃ k down, s.nextMove = .setKey k down) ∧
    (t.variant ≠ s.variant → ∃ code, s.nextMove = .strap code ∧ t.variant.code = code) ∧
    t.params = s.params

/-- R5, R26, R53: once RUN has read Running, VARIANT is fixed and MEM is the execution unit's: a byte changes only in a step
that runs LD B or LD [I], Vx. -/
def Obligations.MemoryAndVariantAfterStart : Prop :=
  ∀ s t : State, s.boot = .started → step s = .next t →
    t.boot = .started ∧ t.variant = s.variant ∧
    ((∃ a, t.mem.read a ≠ s.mem.read a) → ∃ x, s.Runs (.ldB x) ∨ s.Runs (.ldIndVx x))

/-- R19: DISP is written only by CLS and DRW. -/
def Obligations.DisplayChangesOnlyByClsAndDrw : Prop :=
  ∀ s t : State, step s = .next t → t.disp ≠ s.disp → s.Runs .cls ∨ ∃ x y n, s.Runs (.drw x y n)

/-- R21, R22, R175: DT changes only by LD DT, Vx or by one decrement at a tick of its own; ST likewise. -/
def Obligations.TimersChangeOnlyByTheirTicksAndLoads : Prop :=
  ∀ s t : State, step s = .next t →
    (t.dt ≠ s.dt → (s.nextMove = .tick .delay ∧ t.dt.toNat + 1 = s.dt.toNat) ∨ ∃ x, s.Runs (.ldDtVx x)) ∧
    (t.st ≠ s.st → (s.nextMove = .tick .sound ∧ t.st.toNat + 1 = s.st.toNat) ∨ ∃ x, s.Runs (.ldStVx x))

/-- R175: one tick event of a timer: it dies on seeing Stopped, decrements a non-zero counter while Running, and changes
nothing in Paused or Starting or once it is dead. The two timers are independent, and EXEC takes no part
(notes/assumptions/24.md). -/
def Obligations.TimerTick : Prop :=
  ∀ s : State,
    (s.nextMove = .tick .delay → step s = .next
      { s with
        agenda := s.agenda.tail
        dtAlive := if s.run = .stopped then false else s.dtAlive
        dt := if s.dtAlive = true ∧ s.run = .running ∧ s.dt ≠ 0 then s.dt - 1 else s.dt }) ∧
    (s.nextMove = .tick .sound → step s = .next
      { s with
        agenda := s.agenda.tail
        stAlive := if s.run = .stopped then false else s.stAlive
        st := if s.stAlive = true ∧ s.run = .running ∧ s.st ≠ 0 then s.st - 1 else s.st })

/-- R28: both decrementers are alive at reset (the spec's decision D8, notes/assumptions/2.md); one dies on observing
Stopped at a tick of its own and at no other step; a dead one stays dead and never decrements again, whatever RUN
reads. -/
def Obligations.DecrementersDieForGood : Prop :=
  State.reset.dtAlive = true ∧ State.reset.stAlive = true ∧
  ∀ s t : State, step s = .next t →
    (t.dtAlive = false ↔ s.dtAlive = false ∨ (s.nextMove = .tick .delay ∧ s.run = .stopped)) ∧
    (t.stAlive = false ↔ s.stAlive = false ∨ (s.nextMove = .tick .sound ∧ s.run = .stopped)) ∧
    (s.nextMove = .tick .delay → s.dtAlive = false → t.dt = s.dt) ∧
    (s.nextMove = .tick .sound → s.stAlive = false → t.st = s.st)

/-- R176 (a): while Running, k ticks take a timer set to N to N - k, and never below 0; while Paused it stays constant
across any number of ticks. -/
def Obligations.TimerCountsDownToZero : Prop :=
  ∀ (k : Nat) (rest : List Move) (s : State),
    (s.dtAlive = true → s.agenda = List.replicate k (.tick .delay) ++ rest →
      (s.run = .running → ∃ t : State, Host.Core.run Sys2Proof.core k s = .next t ∧ t.dt.toNat = s.dt.toNat - k) ∧
      (s.run = .paused → ∃ t : State, Host.Core.run Sys2Proof.core k s = .next t ∧ t.dt = s.dt)) ∧
    (s.stAlive = true → s.agenda = List.replicate k (.tick .sound) ++ rest →
      (s.run = .running → ∃ t : State, Host.Core.run Sys2Proof.core k s = .next t ∧ t.st.toNat = s.st.toNat - k) ∧
      (s.run = .paused → ∃ t : State, Host.Core.run Sys2Proof.core k s = .next t ∧ t.st = s.st))

/-- R143: one sample of a key-wait: Stopped ends it with V[x] unwritten; no key pressed leaves it waiting; a pressed key
completes it, in Paused and Starting too, with the lowest index by default, or with any pressed one. -/
def Obligations.KeyWaitSample : Prop :=
  ∀ (s : State) (x : RegIx), s.nextMove = .execUnit → s.exec = .waitK x →
    (s.run = .stopped → step s = .next { s with agenda := s.agenda.tail, exec := .halted .stopped }) ∧
    (s.run ≠ .stopped → (∀ k : KeyIx, s.key[k.val] = false) → step s = .next { s with agenda := s.agenda.tail }) ∧
    (s.run ≠ .stopped → ∀ k : KeyIx, s.key[k.val] = true →
      (s.params.keyPick = .lowest → (∀ j : KeyIx, j < k → s.key[j.val] = false) →
        step s = .next
          { s with agenda := s.agenda.tail, exec := .runnable, v := s.v.set x.val (BitVec.ofNat 8 k.val) x.isLt }) ∧
      (s.params.keyPick = .anyPressed → ∃ j : KeyIx, s.key[j.val] = true ∧
        step s = .next
          { s with
            agenda := s.agenda.tail
            exec := .runnable
            draws := s.draws + 1
            v := s.v.set x.val (BitVec.ofNat 8 j.val) x.isLt }))

/-- R5, R174: the host's moves on KEY and RUN: any key at any time; RUN as it likes, but never out of Stopped, and not to
Running before MEM is loaded and VARIANT fixed. -/
def Obligations.HostWritesKeysAndRunStatus : Prop :=
  ∀ s : State,
    (∀ (k : KeyIx) (down : Bool), s.nextMove = .setKey k down →
      ∃ t, step s = .next t ∧ t.key[k.val] = down ∧ (∀ j : KeyIx, j ≠ k → t.key[j.val] = s.key[j.val]) ∧
        t.run = s.run ∧ t.exec = s.exec ∧ SameExecutionState s t) ∧
    (∀ r : RunStatus, s.nextMove = .setRun r →
      (s.run = .stopped → r ≠ .stopped → step s = .refused .leavesStopped) ∧
      (s.run ≠ .stopped → r = .running → s.boot = .fresh ∨ s.boot = .loaded → step s = .refused .runBeforeBoot) ∧
      (s.run ≠ .stopped ∨ r = .stopped → r ≠ .running ∨ s.boot = .strapped ∨ s.boot = .started →
        ∃ t, step s = .next t ∧ t.run = r ∧ t.key = s.key ∧ t.exec = s.exec ∧ SameExecutionState s t))

/-! ### All instructions at once -/

/-- R10 to R23, R161: every instruction answers a next state in every state, and writes nothing outside its footprint. -/
def Obligations.EveryInstructionKeepsToItsFootprint : Prop :=
  ∀ (i : Instr) (s : State), ∃ t, exec i s = .next t ∧ (footprint i s).Frames s t

/-- R161, R164: the instructions that can halt the unit, with which cause and when; and that the faulting instruction writes
nothing but EXEC. -/
def Obligations.FaultingInstructionsWriteNothing : Prop :=
  ∀ (i : Instr) (s t : State) (c : Cause), s.exec = .runnable → exec i s = .next t → t.exec = .halted c →
    t = { s with exec := .halted c } ∧
    ((i = .ret ∧ c = .stackUnderflow ∧ s.sp = 0) ∨
     ((∃ nnn, i = .call nnn) ∧ c = .stackOverflow ∧ s.sp.val ≥ s.params.stackUsable.entries) ∨
     ((∃ x y n, i = .drw x y n ∧ ¬ s.InMemory n.val) ∧ c = .memOutOfBounds) ∨
     ((∃ x, i = .ldB x ∧ ¬ s.InMemory 3) ∧ c = .memOutOfBounds) ∨
     ((∃ x, (i = .ldIndVx x ∨ i = .ldVxInd x) ∧ ¬ s.InMemory (x.val + 1)) ∧ c = .memOutOfBounds))

/-- R46: a data access that leaves MEM halts with cause 5, and nothing else changes. -/
def Obligations.DataAccessBeyondMemoryHalts : Prop :=
  ∀ (s : State) (x y : RegIx) (n : Fin 16),
    let t : State := { s with exec := .halted .memOutOfBounds }
    t.haltCause = 5 ∧
    (¬ s.InMemory n.val → exec (.drw x y n) s = .next t) ∧
    (¬ s.InMemory 3 → exec (.ldB x) s = .next t) ∧
    (¬ s.InMemory (x.val + 1) →
      exec (.ldIndVx x) s = .next t ∧ exec (.ldVxInd x) s = .next t)

/-- R41, R46: the addresses of a data access: I + k where the access lies inside MEM, and I + k modulo 4096 under wrap12. -/
def Obligations.DataAddressesAreIPlusOffset : Prop :=
  ∀ (s : State) (n k : Nat), s.InMemory n → k < n →
    (s.params.dataOob = .fault → s.dataAddr k = s.i.toNat + k) ∧
    (s.params.dataOob = .wrap12 → s.dataAddr k = (s.i.toNat + k) % 4096)

/-- R1, R26: VARIANT changes the behaviour of eight instructions and no other, and there ExtendedA and ExtendedB are alike:
the next states differ in VARIANT alone. -/
def Obligations.VariantsDifferOnlyAtEightInstructions : Prop :=
  ∀ (i : Instr) (s t : State) (a b : Variant),
    (a ≠ .base ∧ b ≠ .base) ∨
      (∀ x y, i ≠ .orReg x y ∧ i ≠ .andReg x y ∧ i ≠ .xorReg x y ∧ i ≠ .shrReg x y ∧ i ≠ .shlReg x y ∧
        i ≠ .ldF x ∧ i ≠ .ldIndVx x ∧ i ≠ .ldVxInd x) →
    exec i { s with variant := a } = .next t → exec i { s with variant := b } = .next { t with variant := b }

/-! ### Invariants -/

/-- R18: every step keeps memory in its canonical form, inside 0 .. 4095. -/
def Obligations.StepKeepsMemoryCanonical : Prop :=
  ∀ s t : State, s.mem.wf → step s = .next t → t.mem.wf

/-- R14, R16, R82: every step keeps PC at most 0x10FE, every valid return address at most 0x1000, and the stack within its
usable entries. -/
def Obligations.StepKeepsAddressesInRange : Prop :=
  ∀ s t : State, s.AddressesInRange → step s = .next t → t.AddressesInRange

/-- R174, R5: every step keeps the latch: a dead decrementer or a unit halted with cause 1 means that RUN is Stopped, RUN
reads Running only after the boot, and a halted unit was started or stopped. -/
def Obligations.StepKeepsStopLatched : Prop :=
  ∀ s t : State, s.StopLatched → step s = .next t → t.StopLatched

/-- The state after reset, the spec's decision D8 in part (notes/assumptions/2.md), meets the three invariants. -/
def Obligations.ResetMeetsTheInvariants : Prop :=
  State.reset.mem.wf ∧ State.reset.AddressesInRange ∧ State.reset.StopLatched

/-! ### Reset and boot (70_reset_and_hazards.md) -/

/-- R190: the state reset leaves, in the elements to which the spec gives a value, by the source or by its decisions D8 and
D13 (notes/assumptions/2.md). -/
def Obligations.ResetValues : Prop :=
  let s := State.reset
  (∀ x, s.readV x = 0) ∧ s.i = 0 ∧ s.pc = 0x200 ∧ s.sp = 0 ∧ (∀ k : Fin 16, s.stk[k.val] = 0) ∧
  (∀ a, s.mem.read a = 0) ∧ (∀ y x, s.disp.cell y x = false) ∧ (∀ k : KeyIx, s.key[k.val] = false) ∧
  s.dt = 0 ∧ s.st = 0 ∧ s.run = .starting ∧ s.exec = .runnable ∧ s.dtAlive = true ∧ s.stAlive = true ∧
  s.haltCause = 0

/-- R192: the boot from reset, for every choice of the open parameters: after the load, the strap and RUN = Running, the
glyph table GLYPHS stands at 0x000 with glyph c at 5 * c, the image from 0x200, every other byte is 0, VARIANT is the
strap's, RUN reads Running, and everything else is as reset left it (the values of decision D8 among them,
notes/assumptions/2.md). -/
def Obligations.BootLoadsGlyphsAndImage : Prop :=
  ∀ (p : Params) (image : List Byte) (variant : Variant), image.length ≤ 3584 →
    ∃ t : State, Host.Core.run Sys2Proof.core 3
        { State.reset with params := p, agenda := [.load image, .strap variant.code, .setRun .running] } = .next t ∧
      (∃ mem, t = { State.reset with
        params := p, mem := mem, variant := variant, run := .running, boot := .started }) ∧
      (∀ (c : Fin 16) (r : Fin 5), t.mem.read (5 * c.val + r.val) = (p.glyphs[c.val])[r.val]) ∧
      (∀ (k : Nat) (h : k < image.length), t.mem.read (0x200 + k) = image[k]) ∧
      (∀ a, 80 ≤ a → (a < 0x200 ∨ 0x200 + image.length ≤ a) → t.mem.read a = 0)

/-- R192, R193, R26: before VARIANT is fixed an image is accepted iff it has at most 3584 bytes; once MEM is loaded, a VARIANT
code is accepted iff it is not 3, and once only; at any other time the host has no such move (R5). -/
def Obligations.LoaderIsCheckedBeforeStart : Prop :=
  ∀ s : State,
    (∀ image, s.nextMove = .load image →
      (s.boot = .fresh ∨ s.boot = .loaded → s.run ≠ .stopped →
        (image.length ≤ 3584 → ∃ t, step s = .next t ∧ t.boot = .loaded) ∧
        (3584 < image.length → step s = .refused .imageTooLong)) ∧
      (s.boot = .strapped ∨ s.boot = .started ∨ s.run = .stopped → step s = .refused .loadOutOfTurn)) ∧
    (∀ code, s.nextMove = .strap code →
      (s.boot = .loaded → s.run ≠ .stopped →
        (code ≠ 3 → ∃ t, step s = .next t ∧ t.variant.code = code ∧ t.boot = .strapped) ∧
        (code = 3 → step s = .refused .reservedVariant)) ∧
      (s.boot ≠ .loaded ∨ s.run = .stopped → step s = .refused .strapOutOfTurn))

/-- R52: two registers stored by LD [I], Vx are what a fetch at their address then reads, high byte first, with no action by
the program. -/
def Obligations.StoredBytesAreFetched : Prop :=
  ∀ (s : State) (x : RegIx) (j k : RegIx), s.mem.wf → s.InMemory (x.val + 1) → k.val = j.val + 1 → k ≤ x →
    s.dataAddr k.val = s.dataAddr j.val + 1 →
    ∃ t, exec (.ldIndVx x) s = .next t ∧
      ∀ u : State, u.mem = t.mem → u.pc.toNat = s.dataAddr j.val →
        u.WordAtPc (s.readV j ++ s.readV k) ∧ u.fetchWord = s.readV j ++ s.readV k

/-! ### Control transfer (40_control_transfer.md) -/

/-- R81. -/
def Obligations.JumpLoadsItsTarget : Prop :=
  ∀ (s : State) (nnn : Addr), decodeWord (packA 0x1 nnn) = .ok (.jp nnn) ∧
    ∃ t, exec (.jp nnn) s = .next t ∧ t.pc.toNat = nnn.toNat ∧ Footprint.Frames { pc := True } s t

/-- R87: V[0] in every variant, 16-bit wrap, no mask to 12 bits. -/
def Obligations.IndexedJumpAddsV0 : Prop :=
  ∀ (s : State) (nnn : Addr), decodeWord (packA 0xB nnn) = .ok (.jpV0 nnn) ∧
    ∃ t, exec (.jpV0 nnn) s = .next t ∧ t.pc.toNat = (nnn.toNat + (s.readV 0).toNat) % 65536 ∧
      t.pc.toNat ≤ 0x10FE ∧ Footprint.Frames { pc := True } s t

/-- R82: CALL pushes the advanced PC and jumps; on the full stack it halts with cause 3 and nothing is written. The number
of usable entries is STACK_USABLE, 16 by default. -/
def Obligations.CallPushesTheAdvancedPc : Prop :=
  ∀ (s : State) (nnn : Addr), decodeWord (packA 0x2 nnn) = .ok (.call nnn) ∧
    (s.sp.val < s.params.stackUsable.entries →
      ∃ t, exec (.call nnn) s = .next t ∧ t.pc.toNat = nnn.toNat ∧ t.sp.val = s.sp.val + 1 ∧
        (∀ k : Fin 16, k.val = s.sp.val → t.stk[k.val] = s.pc) ∧
        Footprint.Frames { pc := True, sp := True, stk := fun k => k.val = s.sp.val } s t) ∧
    (s.params.stackUsable.entries ≤ s.sp.val →
      ∃ t, exec (.call nnn) s = .next t ∧ t = { s with exec := .halted .stackOverflow } ∧ t.haltCause = 3)

/-- R80, and R68 (a), the spec's decision D3, for the ignored X: RET pops the top entry into PC, all 16 bits, the entry keeping its value; on the empty stack it halts with cause 4
and nothing is written. -/
def Obligations.ReturnPopsTheTopEntry : Prop :=
  ∀ s : State, (∀ x, decodeWord (packXI 0x0 x 0xEE) = .ok .ret) ∧
    (∀ k : Fin 16, s.sp.val = k.val + 1 →
      ∃ t, exec .ret s = .next t ∧ t.sp.val = k.val ∧ t.pc = s.stk[k.val] ∧
        Footprint.Frames { pc := True, sp := True } s t) ∧
    (s.sp.val = 0 →
      ∃ t, exec .ret s = .next t ∧ t = { s with exec := .halted .stackUnderflow } ∧ t.haltCause = 4)

/-- R83 to R86: the four conditional skips of registers: PC advances by a further 2, modulo 65536, exactly when the
comparison holds; nothing else changes. -/
def Obligations.RegisterSkips : Prop :=
  ∀ (s : State) (x y : RegIx) (nn : Byte),
    decodeWord (packXI 0x3 x nn) = .ok (.seImm x nn) ∧ decodeWord (packXI 0x4 x nn) = .ok (.sneImm x nn) ∧
    (∀ n, decodeWord (packXY 0x5 x y n) = .ok (.seReg x y) ∧ decodeWord (packXY 0x9 x y n) = .ok (.sneReg x y)) ∧
    (∃ t, exec (.seImm x nn) s = .next t ∧
      t.pc = (if s.readV x = nn then s.pc + 2 else s.pc) ∧ Footprint.Frames { pc := True } s t) ∧
    (∃ t, exec (.sneImm x nn) s = .next t ∧
      t.pc = (if s.readV x ≠ nn then s.pc + 2 else s.pc) ∧ Footprint.Frames { pc := True } s t) ∧
    (∃ t, exec (.seReg x y) s = .next t ∧
      t.pc = (if s.readV x = s.readV y then s.pc + 2 else s.pc) ∧ Footprint.Frames { pc := True } s t) ∧
    (∃ t, exec (.sneReg x y) s = .next t ∧
      t.pc = (if s.readV x ≠ s.readV y then s.pc + 2 else s.pc) ∧ Footprint.Frames { pc := True } s t)

/-- R140, R141: the key skips look at the key numbered by the low four bits of V[X]. -/
def Obligations.KeySkips : Prop :=
  ∀ (s : State) (x : RegIx) (k : KeyIx), k.val = (s.readV x).toNat % 16 →
    decodeWord (packXI 0xE x 0x9E) = .ok (.skp x) ∧ decodeWord (packXI 0xE x 0xA1) = .ok (.sknp x) ∧
    (∃ t, exec (.skp x) s = .next t ∧
      t.pc = (if s.key[k.val] = true then s.pc + 2 else s.pc) ∧ Footprint.Frames { pc := True } s t) ∧
    (∃ t, exec (.sknp x) s = .next t ∧
      t.pc = (if s.key[k.val] = false then s.pc + 2 else s.pc) ∧ Footprint.Frames { pc := True } s t)

/-! ### Register load, arithmetic, logic, shift (41_alu.md) -/

/-- R101, R102, R111: the loads and the addition that write V[X] alone and no flag. -/
def Obligations.LoadsAndAddImmediateWriteNoFlag : Prop :=
  ∀ (s : State) (x y : RegIx) (nn : Byte),
    decodeWord (packXI 0x6 x nn) = .ok (.ldImm x nn) ∧ decodeWord (packXI 0x7 x nn) = .ok (.addImm x nn) ∧
    decodeWord (packXY 0x8 x y 0x0) = .ok (.ldReg x y) ∧
    (∃ t, exec (.ldImm x nn) s = .next t ∧ t.readV x = nn ∧ Footprint.Frames { v := fun r => r = x } s t) ∧
    (∃ t, exec (.addImm x nn) s = .next t ∧ (t.readV x).toNat = ((s.readV x).toNat + nn.toNat) % 256 ∧
      Footprint.Frames { v := fun r => r = x } s t) ∧
    (∃ t, exec (.ldReg x y) s = .next t ∧ t.readV x = s.readV y ∧ Footprint.Frames { v := fun r => r = x } s t)

/-- R103 to R105: the logic instructions: in Base the result and VF = 0, in ExtA and ExtB the result alone. -/
def Obligations.LogicResetsTheFlagInBaseOnly : Prop :=
  ∀ (s : State) (x y : RegIx),
    decodeWord (packXY 0x8 x y 0x1) = .ok (.orReg x y) ∧ decodeWord (packXY 0x8 x y 0x2) = .ok (.andReg x y) ∧
    decodeWord (packXY 0x8 x y 0x3) = .ok (.xorReg x y) ∧
    (∃ t, exec (.orReg x y) s = .next t ∧ WritesLogic s t x (s.readV x ||| s.readV y) ∧
      Footprint.Frames { v := fun r => r = x ∨ (s.variant = .base ∧ r = vf) } s t) ∧
    (∃ t, exec (.andReg x y) s = .next t ∧ WritesLogic s t x (s.readV x &&& s.readV y) ∧
      Footprint.Frames { v := fun r => r = x ∨ (s.variant = .base ∧ r = vf) } s t) ∧
    (∃ t, exec (.xorReg x y) s = .next t ∧ WritesLogic s t x (s.readV x ^^^ s.readV y) ∧
      Footprint.Frames { v := fun r => r = x ∨ (s.variant = .base ∧ r = vf) } s t)

/-- R106: the sum modulo 256, and VF = 1 exactly when it exceeds 255; the old VF is not added. -/
def Obligations.AddSetsTheCarry : Prop :=
  ∀ (s : State) (x y : RegIx), decodeWord (packXY 0x8 x y 0x4) = .ok (.addReg x y) ∧
    ∃ t, exec (.addReg x y) s = .next t ∧
    WritesResultAndFlag s t x (((s.readV x).toNat + (s.readV y).toNat) % 256)
      (if (s.readV x).toNat + (s.readV y).toNat > 255 then 1 else 0) ∧
    Footprint.Frames { v := fun r => r = x ∨ r = vf } s t

/-- R107, R109: the two subtractions, VF = 1 exactly when there is no borrow, equality included. -/
def Obligations.SubtractionsSetTheInverseOfBorrow : Prop :=
  ∀ (s : State) (x y : RegIx),
    decodeWord (packXY 0x8 x y 0x5) = .ok (.subReg x y) ∧ decodeWord (packXY 0x8 x y 0x7) = .ok (.subnReg x y) ∧
    (∃ t, exec (.subReg x y) s = .next t ∧
      WritesResultAndFlag s t x (((s.readV x).toNat + 256 - (s.readV y).toNat) % 256)
        (if (s.readV x).toNat ≥ (s.readV y).toNat then 1 else 0) ∧
      Footprint.Frames { v := fun r => r = x ∨ r = vf } s t) ∧
    (∃ t, exec (.subnReg x y) s = .next t ∧
      WritesResultAndFlag s t x (((s.readV y).toNat + 256 - (s.readV x).toNat) % 256)
        (if (s.readV y).toNat ≥ (s.readV x).toNat then 1 else 0) ∧
      Footprint.Frames { v := fun r => r = x ∨ r = vf } s t)

/-- R108, R110: the two shifts by one position of V[Y] in Base and of V[X] in the extended variants; VF is the bit shifted
out. -/
def Obligations.ShiftsTakeTheirSourceByVariant : Prop :=
  ∀ (s : State) (x y : RegIx),
    decodeWord (packXY 0x8 x y 0x6) = .ok (.shrReg x y) ∧ decodeWord (packXY 0x8 x y 0xE) = .ok (.shlReg x y) ∧
    (∃ t, exec (.shrReg x y) s = .next t ∧
      WritesResultAndFlag s t x ((ShiftSource s x y).toNat / 2) ((ShiftSource s x y).toNat % 2) ∧
      Footprint.Frames { v := fun r => r = x ∨ r = vf } s t) ∧
    (∃ t, exec (.shlReg x y) s = .next t ∧
      WritesResultAndFlag s t x ((ShiftSource s x y).toNat * 2 % 256) ((ShiftSource s x y).toNat / 128) ∧
      Footprint.Frames { v := fun r => r = x ∨ r = vf } s t)

/-! ### Index register and random (42_index_random.md) -/

/-- R120, R121: I takes NNN, and I plus V[X] modulo 65536; no flag, no mask to 12 bits. -/
def Obligations.IndexLoadAndAdd : Prop :=
  ∀ (s : State) (x : RegIx) (nnn : Addr),
    decodeWord (packA 0xA nnn) = .ok (.ldI nnn) ∧ decodeWord (packXI 0xF x 0x1E) = .ok (.addI x) ∧
    (∃ t, exec (.ldI nnn) s = .next t ∧ t.i.toNat = nnn.toNat ∧ Footprint.Frames { i := True } s t) ∧
    (∃ t, exec (.addI x) s = .next t ∧ t.i.toNat = (s.i.toNat + (s.readV x).toNat) % 65536 ∧
      Footprint.Frames { i := True } s t)

/-- R122: I is 5 times the character code, the code masked to four bits in Base only. -/
def Obligations.FontAddressIsFiveTimesTheCode : Prop :=
  ∀ (s : State) (x : RegIx), decodeWord (packXI 0xF x 0x29) = .ok (.ldF x) ∧ ∃ t, exec (.ldF x) s = .next t ∧
    (s.variant = .base → t.i.toNat = 5 * ((s.readV x).toNat % 16)) ∧
    (s.variant ≠ .base → t.i.toNat = 5 * (s.readV x).toNat) ∧ Footprint.Frames { i := True } s t

/-- R123: V[X] is one sample of RND, the free byte at the draw counter, AND NN, whatever that byte is; so every bit that is 0
in NN is 0 in V[X]. -/
def Obligations.RandomIsMaskedByItsImmediate : Prop :=
  ∀ (s : State) (x : RegIx) (nn : Byte), decodeWord (packXI 0xC x nn) = .ok (.rnd x nn) ∧
    ∃ t, exec (.rnd x nn) s = .next t ∧
    t.readV x = Config.freeByte s.draws &&& nn ∧ t.readV x &&& ~~~nn = 0 ∧ t.draws = s.draws + 1 ∧
    Footprint.Frames { v := fun r => r = x, draws := True } s t

/-! ### Display (43_display.md) -/

/-- R130: every cell 0, VF not written. -/
def Obligations.ClearScreenZeroesEveryCell : Prop :=
  ∀ s : State, (∀ x, decodeWord (packXI 0x0 x 0xE0) = .ok .cls) ∧
    ∃ t, exec .cls s = .next t ∧ (∀ y x, t.disp.cell y x = false) ∧ Footprint.Frames { disp := True } s t

/-- R131: every covered cell is the old cell XOR the sprite bit, every other cell is unchanged, coordinates wrap, and VF is
1 exactly when a set cell met a set bit. An access beyond MEM is `DataAccessBeyondMemoryHalts`. -/
def Obligations.DrawXorsTheSpriteAndReportsCollisions : Prop :=
  ∀ (s : State) (x y : RegIx) (n : Fin 16), s.InMemory n.val →
    decodeWord (packXY 0xD x y (BitVec.ofFin (w := 4) n)) = .ok (.drw x y n) ∧
    ∃ t, exec (.drw x y n) s = .next t ∧
      (∀ r c, r < n.val → c < 8 →
        t.disp.cell (spriteRow (s.readV y) r) (spriteColumn (s.readV x) c) =
          (s.disp.cell (spriteRow (s.readV y) r) (spriteColumn (s.readV x) c) ^^ s.spriteBit r c)) ∧
      (∀ (y' : Fin 32) (x' : Fin 64),
        (∀ r c, r < n.val → c < 8 → ¬ (y' = spriteRow (s.readV y) r ∧ x' = spriteColumn (s.readV x) c)) →
        t.disp.cell y' x' = s.disp.cell y' x') ∧
      ((∃ r c, r < n.val ∧ c < 8 ∧
          s.disp.cell (spriteRow (s.readV y) r) (spriteColumn (s.readV x) c) = true ∧ s.spriteBit r c = true) →
        t.readV vf = 1) ∧
      ((∀ r c, r < n.val → c < 8 →
          s.disp.cell (spriteRow (s.readV y) r) (spriteColumn (s.readV x) c) = true → s.spriteBit r c = false) →
        t.readV vf = 0) ∧
      Footprint.Frames { v := fun r => r = vf, disp := True } s t

/-- R132 (a), (b): drawing the same sprite twice at the same place restores the display; the first VF is 1 exactly when the
first draw turned a cell off, the second exactly when it had turned a cell on. -/
def Obligations.DoubleDrawRestoresTheDisplay : Prop :=
  ∀ (s t u : State) (x y : RegIx) (n : Fin 16), s.InMemory n.val →
    exec (.drw x y n) s = .next t → t.readV x = s.readV x → t.readV y = s.readV y →
    exec (.drw x y n) t = .next u →
    u.disp = s.disp ∧
    (t.readV vf = 1 ↔ ∃ y' x', s.disp.cell y' x' = true ∧ t.disp.cell y' x' = false) ∧
    (u.readV vf = 1 ↔ ∃ y' x', s.disp.cell y' x' = false ∧ t.disp.cell y' x' = true) ∧
    (t.readV vf = 0 ∨ t.readV vf = 1) ∧ (u.readV vf = 0 ∨ u.readV vf = 1)

/-- R132 (c): the number of cells that change is the number of 1 bits in the N sprite bytes. -/
def Obligations.DrawChangesAsManyCellsAsBits : Prop :=
  ∀ (s t : State) (x y : RegIx) (n : Fin 16), s.InMemory n.val → exec (.drw x y n) s = .next t →
    (Finset.univ.filter fun q : Fin 32 × Fin 64 => t.disp.cell q.1 q.2 ≠ s.disp.cell q.1 q.2).card =
      ((List.range n.val).map fun r => onesOf (s.mem.read (s.dataAddr r))).sum

/-! ### Keys and timers (44_keys_timers.md) -/

/-- R142: the issue step enters WAITK(X), where HALT_CAUSE reads 0, and nothing else changes. -/
def Obligations.KeyWaitIssues : Prop :=
  ∀ (s : State) (x : RegIx), decodeWord (packXI 0xF x 0x0A) = .ok (.ldVxK x) ∧
    ∃ t, exec (.ldVxK x) s = .next t ∧ t.exec = .waitK x ∧ t.haltCause = 0 ∧
    Footprint.Frames { exec := True } s t

/-- R144 to R146: the byte copies between V[X] and the timers. -/
def Obligations.TimerTransfersCopyOneByte : Prop :=
  ∀ (s : State) (x : RegIx),
    decodeWord (packXI 0xF x 0x07) = .ok (.ldVxDt x) ∧ decodeWord (packXI 0xF x 0x15) = .ok (.ldDtVx x) ∧
    decodeWord (packXI 0xF x 0x18) = .ok (.ldStVx x) ∧
    (∃ t, exec (.ldVxDt x) s = .next t ∧ t.readV x = s.dt ∧ Footprint.Frames { v := fun r => r = x } s t) ∧
    (∃ t, exec (.ldDtVx x) s = .next t ∧ t.dt = s.readV x ∧ Footprint.Frames { dt := True } s t) ∧
    (∃ t, exec (.ldStVx x) s = .next t ∧ t.st = s.readV x ∧ (t.sounding = true ↔ s.readV x ≠ 0) ∧
      Footprint.Frames { st := True } s t)

/-! ### Memory transfer (45_memory_transfer.md) -/

/-- R150: hundreds, tens and ones at the three addresses from I; I and V unchanged in every variant. -/
def Obligations.BcdStoresThreeDigits : Prop :=
  ∀ (s : State) (x : RegIx), s.mem.wf → s.InMemory 3 →
    decodeWord (packXI 0xF x 0x33) = .ok (.ldB x) ∧
    ∃ t, exec (.ldB x) s = .next t ∧
      (t.mem.read (s.dataAddr 0)).toNat = (s.readV x).toNat / 100 ∧
      (t.mem.read (s.dataAddr 1)).toNat = (s.readV x).toNat / 10 % 10 ∧
      (t.mem.read (s.dataAddr 2)).toNat = (s.readV x).toNat % 10 ∧
      Footprint.Frames { mem := s.dataBytes 3 } s t

/-- R151: V[0] .. V[X] to I .. I + X; then I advances by X + 1 modulo 65536 in Base, and stays in ExtA and ExtB. -/
def Obligations.BulkStoreWritesTheRegisters : Prop :=
  ∀ (s : State) (x : RegIx), s.mem.wf → s.InMemory (x.val + 1) →
    decodeWord (packXI 0xF x 0x55) = .ok (.ldIndVx x) ∧
    ∃ t, exec (.ldIndVx x) s = .next t ∧
      (∀ k : RegIx, k ≤ x → t.mem.read (s.dataAddr k.val) = s.readV k) ∧
      (s.variant = .base → t.i.toNat = (s.i.toNat + x.val + 1) % 65536) ∧
      (s.variant ≠ .base → t.i = s.i) ∧
      Footprint.Frames { mem := s.dataBytes (x.val + 1), i := s.variant = .base } s t

/-- R152: V[0] .. V[X] from I .. I + X, the registers above X unchanged; then I as in R151. -/
def Obligations.BulkLoadReadsTheRegisters : Prop :=
  ∀ (s : State) (x : RegIx), s.InMemory (x.val + 1) →
    decodeWord (packXI 0xF x 0x65) = .ok (.ldVxInd x) ∧
    ∃ t, exec (.ldVxInd x) s = .next t ∧
      (∀ k : RegIx, k ≤ x → t.readV k = s.mem.read (s.dataAddr k.val)) ∧
      (s.variant = .base → t.i.toNat = (s.i.toNat + x.val + 1) % 65536) ∧
      (s.variant ≠ .base → t.i = s.i) ∧
      Footprint.Frames { v := fun r => r ≤ x, i := s.variant = .base } s t
end

