-- ==== Sys2Proof/Laws/Decode.lean ====
section
/-! SUPPORT. The fields of a word and of a packed word as numbers, a masked word as its fields, and the opcode map without
overlap. -/

namespace Sys2Proof

/-! ### Fields and packed words as numbers (R63, R64) -/

theorem toNat_family (w : Word) : (family w).toNat = w.toNat / 4096 := by
  have := w.isLt
  simp only [family, BitVec.extractLsb'_toNat, Nat.shiftRight_eq_div_pow]
  omega

theorem toNat_low (w : Word) : (w.extractLsb' 0 4).toNat = w.toNat % 16 := by
  simp [BitVec.extractLsb'_toNat]

theorem toNat_fieldNN (w : Word) : (fieldNN w).toNat = w.toNat % 256 := by
  simp [fieldNN, BitVec.extractLsb'_toNat]

theorem toNat_fieldNNN (w : Word) : (fieldNNN w).toNat = w.toNat % 4096 := by
  simp [fieldNNN, BitVec.extractLsb'_toNat]

theorem val_fieldX (w : Word) : (fieldX w).val = w.toNat / 256 % 16 := by
  show (w.extractLsb' 8 4).toNat = _
  simp [BitVec.extractLsb'_toNat, Nat.shiftRight_eq_div_pow]

theorem val_fieldY (w : Word) : (fieldY w).val = w.toNat / 16 % 16 := by
  show (w.extractLsb' 4 4).toNat = _
  simp [BitVec.extractLsb'_toNat, Nat.shiftRight_eq_div_pow]

theorem val_fieldN (w : Word) : (fieldN w).val = w.toNat % 16 := by
  show (w.extractLsb' 0 4).toNat = _
  simp [BitVec.extractLsb'_toNat]

theorem toNat_append' {m n : Nat} (a : BitVec m) (b : BitVec n) :
    (a ++ b).toNat = a.toNat * 2 ^ n + b.toNat := by
  rw [BitVec.toNat_append, ← Nat.shiftLeft_add_eq_or_of_lt b.isLt, Nat.shiftLeft_eq]

section Packed
variable (f : BitVec 4) (x y : RegIx) (n : BitVec 4) (nn : Byte) (nnn : Addr)

theorem toNat_packA : (packA f nnn).toNat = f.toNat * 4096 + nnn.toNat := toNat_append' f nnn

theorem toNat_packXI : (packXI f x nn).toNat = f.toNat * 4096 + x.val * 256 + nn.toNat := by
  show (f ++ BitVec.ofFin (w := 4) x ++ nn).toNat = _
  rw [toNat_append', toNat_append']
  show (f.toNat * 2 ^ 4 + x.val) * 2 ^ 8 + nn.toNat = _
  omega

theorem toNat_packXY : (packXY f x y n).toNat = f.toNat * 4096 + x.val * 256 + y.val * 16 + n.toNat := by
  show (f ++ BitVec.ofFin (w := 4) x ++ BitVec.ofFin (w := 4) y ++ n).toNat = _
  rw [toNat_append', toNat_append', toNat_append']
  show ((f.toNat * 2 ^ 4 + x.val) * 2 ^ 4 + y.val) * 2 ^ 4 + n.toNat = _
  omega

@[simp] theorem family_packA : family (packA f nnn) = f := by
  apply BitVec.eq_of_toNat_eq
  have := nnn.isLt
  rw [toNat_family, toNat_packA]; omega

@[simp] theorem fieldNNN_packA : fieldNNN (packA f nnn) = nnn := by
  apply BitVec.eq_of_toNat_eq
  have := nnn.isLt
  rw [toNat_fieldNNN, toNat_packA]; omega

@[simp] theorem family_packXI : family (packXI f x nn) = f := by
  apply BitVec.eq_of_toNat_eq
  have := nn.isLt
  rw [toNat_family, toNat_packXI]; omega

@[simp] theorem fieldNN_packXI : fieldNN (packXI f x nn) = nn := by
  apply BitVec.eq_of_toNat_eq
  have := nn.isLt
  rw [toNat_fieldNN, toNat_packXI]; omega

@[simp] theorem fieldX_packXI : fieldX (packXI f x nn) = x := by
  apply Fin.ext
  have := nn.isLt
  rw [val_fieldX, toNat_packXI]; omega

@[simp] theorem family_packXY : family (packXY f x y n) = f := by
  apply BitVec.eq_of_toNat_eq
  have := n.isLt
  rw [toNat_family, toNat_packXY]; omega

@[simp] theorem low_packXY : (packXY f x y n).extractLsb' 0 4 = n := by
  apply BitVec.eq_of_toNat_eq
  have := n.isLt
  rw [toNat_low, toNat_packXY]; omega

@[simp] theorem fieldX_packXY : fieldX (packXY f x y n) = x := by
  apply Fin.ext
  have := n.isLt
  rw [val_fieldX, toNat_packXY]; omega

@[simp] theorem fieldY_packXY : fieldY (packXY f x y n) = y := by
  apply Fin.ext
  have := n.isLt
  rw [val_fieldY, toNat_packXY]; omega

@[simp] theorem fieldN_packXY (k : Fin 16) : fieldN (packXY f x y (BitVec.ofFin (w := 4) k)) = k := by
  apply Fin.ext
  rw [val_fieldN, toNat_packXY]
  show (_ + k.val) % 16 = k.val
  omega

end Packed

/-! ### A masked word as a number (R66)

The rows have three masks: the family alone, the family and the low nibble, the family and the low byte. -/

theorem toNat_and_family (w : Word) : (w &&& 0xF000#16).toNat = w.toNat / 4096 * 4096 := by
  have h : w &&& 0xF000#16 = (w >>> 12) <<< 12 := by
    apply BitVec.eq_of_getLsbD_eq
    intro i hi
    interval_cases i <;> simp
  have := w.isLt
  rw [h, BitVec.toNat_shiftLeft, BitVec.toNat_ushiftRight, Nat.shiftRight_eq_div_pow, Nat.shiftLeft_eq]
  omega

theorem toNat_and_low (w : Word) (k : Nat) (hk : k ≤ 12) :
    (w &&& BitVec.ofNat 16 (2 ^ k - 1)).toNat = w.toNat % 2 ^ k := by
  have : 2 ^ k ≤ 2 ^ 12 := Nat.pow_le_pow_right (by decide) hk
  rw [BitVec.toNat_and, BitVec.toNat_ofNat, Nat.mod_eq_of_lt (by omega), Nat.and_two_pow_sub_one_eq_mod]

theorem toNat_and_family_low (w : Word) : (w &&& 0xF00F#16).toNat = w.toNat / 4096 * 4096 + w.toNat % 16 := by
  have h : w &&& 0xF00F#16 = (w &&& 0xF000#16) + (w &&& 0x000F#16) := by
    rw [BitVec.add_eq_or_of_and_eq_zero] <;> apply BitVec.eq_of_getLsbD_eq <;> intro i hi <;>
      interval_cases i <;> simp
  have := w.isLt
  have low : (w &&& 0x000F#16).toNat = _ := toNat_and_low w 4 (by decide)
  rw [h, BitVec.toNat_add, toNat_and_family, low]
  omega

theorem toNat_and_family_byte (w : Word) : (w &&& 0xF0FF#16).toNat = w.toNat / 4096 * 4096 + w.toNat % 256 := by
  have h : w &&& 0xF0FF#16 = (w &&& 0xF000#16) + (w &&& 0x00FF#16) := by
    rw [BitVec.add_eq_or_of_and_eq_zero] <;> apply BitVec.eq_of_getLsbD_eq <;> intro i hi <;>
      interval_cases i <;> simp
  have := w.isLt
  have low : (w &&& 0x00FF#16).toNat = _ := toNat_and_low w 8 (by decide)
  rw [h, BitVec.toNat_add, toNat_and_family, low]
  omega

/-- A row with the family mask. -/
theorem hits_family (p : Word) (b : Word → Instr) (w : Word) :
    (OpcodeRow.mk 0xF000 p b).hits w = true ↔ w.toNat / 4096 * 4096 = p.toNat := by
  simp only [OpcodeRow.hits, beq_iff_eq]
  rw [← toNat_and_family, BitVec.toNat_inj]
  rfl

/-- A row of family 8, keyed on the low nibble. -/
theorem hits_low (p : Word) (b : Word → Instr) (w : Word) :
    (OpcodeRow.mk 0xF00F p b).hits w = true ↔ w.toNat / 4096 * 4096 + w.toNat % 16 = p.toNat := by
  simp only [OpcodeRow.hits, beq_iff_eq]
  rw [← toNat_and_family_low, BitVec.toNat_inj]
  rfl

/-- A row of families 0, E, F, keyed on the low byte. -/
theorem hits_byte (p : Word) (b : Word → Instr) (w : Word) :
    (OpcodeRow.mk 0xF0FF p b).hits w = true ↔ w.toNat / 4096 * 4096 + w.toNat % 256 = p.toNat := by
  simp only [OpcodeRow.hits, beq_iff_eq]
  rw [← toNat_and_family_byte, BitVec.toNat_inj]
  rfl

/-! ### No two rows overlap (R66: "at most one row matches") -/

/-- The common bits of any two rows' masks tell their patterns apart. -/
theorem opcodeRows_disjoint :
    opcodeRows.Pairwise (fun r q => r.pattern &&& q.mask ≠ q.pattern &&& r.mask) := by
  have h : (opcodeRows.map fun r => (r.mask, r.pattern)).Pairwise (fun r q => r.2 &&& q.1 ≠ q.2 &&& r.1) := by
    decide
  exact List.pairwise_map.mp h

theorem OpcodeRow.pattern_of_hits {r : OpcodeRow} {w : Word} (h : r.hits w = true) : w &&& r.mask = r.pattern := by
  simpa [OpcodeRow.hits] using h

/-- Two rows that match one word agree on their common mask, which no two rows of the map do. -/
theorem OpcodeRow.agree_of_hits {r q : OpcodeRow} {w : Word} (hr : r.hits w = true) (hq : q.hits w = true) :
    r.pattern &&& q.mask = q.pattern &&& r.mask := by
  rw [← OpcodeRow.pattern_of_hits hr, ← OpcodeRow.pattern_of_hits hq, BitVec.and_assoc, BitVec.and_assoc,
    BitVec.and_comm r.mask]

theorem find?_of_pairwise {α : Type} {p : α → Bool} {l : List α} {a : α}
    (h : l.Pairwise (fun x y => ¬ (p x = true ∧ p y = true))) (ha : a ∈ l) (hp : p a = true) :
    l.find? p = some a := by
  induction l with
  | nil => simp at ha
  | cons x l ih =>
    obtain ⟨h1, h2⟩ := List.pairwise_cons.mp h
    rcases List.mem_cons.mp ha with rfl | ha
    · simp [hp]
    · have hx : p x = false := by
        by_contra hx
        exact h1 a ha ⟨by simpa using hx, hp⟩
      simp [hx, ih h2 ha]

/-- The decoder answers with the row that matches, wherever it stands in the map. -/
theorem decodeWord_of_hits {r : OpcodeRow} {w : Word} (hr : r ∈ opcodeRows) (h : r.hits w = true) :
    decodeWord w = .ok (r.build w) := by
  have hp : opcodeRows.Pairwise (fun x y => ¬ (x.hits w = true ∧ y.hits w = true)) :=
    opcodeRows_disjoint.imp fun hne hh => hne (OpcodeRow.agree_of_hits hh.1 hh.2)
  simp [decodeWord, find?_of_pairwise hp hr h]

/-- What the decoder answers comes from a row that matches. -/
theorem hits_of_decodeWord {w : Word} {i : Instr} (h : decodeWord w = .ok i) :
    ∃ r ∈ opcodeRows, r.hits w = true ∧ i = r.build w := by
  unfold decodeWord at h
  split at h
  · rename_i r hr
    exact ⟨r, List.mem_of_find?_eq_some hr, by simpa using List.find?_some hr, by simpa using h.symm⟩
  · simp at h

/-- A word the decoder rejects matches no row, and the rejection names it. -/
theorem decodeWord_error {w : Word} {e : DecodeError} :
    decodeWord w = .error e ↔ e = .unknownOpcode w ∧ ∀ r ∈ opcodeRows, r.hits w = false := by
  unfold decodeWord
  split
  · rename_i r hr
    refine ⟨by simp, fun h => ?_⟩
    have := h.2 r (List.mem_of_find?_eq_some hr)
    have hit := List.find?_some hr
    simp [this] at hit
  · rename_i hr
    simp only [List.find?_eq_none] at hr
    constructor
    · intro h; exact ⟨by simpa using h.symm, fun r hm => by simpa using hr r hm⟩
    · rintro ⟨rfl, -⟩; rfl

/-! ### The configured machine (R68, R111) -/

theorem decodeFor_ok {p : Params} {w : Word} {i : Instr} :
    decodeFor p w = .ok i ↔ decodeWord w = .ok i ∧ admits p w i = true := by
  unfold decodeFor
  split
  · rename_i j hj
    by_cases ha : admits p w j = true
    · simp only [ha, if_true, hj]
      constructor
      · intro h; cases h; exact ⟨rfl, ha⟩
      · rintro ⟨h, -⟩; exact h
    · simp only [ha, hj]
      constructor
      · intro h; cases h
      · rintro ⟨h, h2⟩; cases h; exact absurd h2 ha
  · rename_i e he
    constructor
    · intro h; cases h
    · rintro ⟨h, -⟩; rw [he] at h; cases h

end Sys2Proof
end

