-- ==== Sys2Proof/Laws/State.lean ====
section
/-! SUPPORT. For each named update of the state, what each field is after it, so that no proof unfolds a record update. All
are true by rfl. -/

namespace Sys2Proof.Machine

variable (s : State)

/-! ### setV -/

@[simp] theorem State.setV_v (x : RegIx) (b : Byte) :
    (s.setV x b).v = s.v.set x.val b x.isLt := rfl
@[simp] theorem State.setV_i (x : RegIx) (b : Byte) :
    (s.setV x b).i = s.i := rfl
@[simp] theorem State.setV_pc (x : RegIx) (b : Byte) :
    (s.setV x b).pc = s.pc := rfl
@[simp] theorem State.setV_sp (x : RegIx) (b : Byte) :
    (s.setV x b).sp = s.sp := rfl
@[simp] theorem State.setV_stk (x : RegIx) (b : Byte) :
    (s.setV x b).stk = s.stk := rfl
@[simp] theorem State.setV_mem (x : RegIx) (b : Byte) :
    (s.setV x b).mem = s.mem := rfl
@[simp] theorem State.setV_disp (x : RegIx) (b : Byte) :
    (s.setV x b).disp = s.disp := rfl
@[simp] theorem State.setV_key (x : RegIx) (b : Byte) :
    (s.setV x b).key = s.key := rfl
@[simp] theorem State.setV_dt (x : RegIx) (b : Byte) :
    (s.setV x b).dt = s.dt := rfl
@[simp] theorem State.setV_st (x : RegIx) (b : Byte) :
    (s.setV x b).st = s.st := rfl
@[simp] theorem State.setV_run (x : RegIx) (b : Byte) :
    (s.setV x b).run = s.run := rfl
@[simp] theorem State.setV_variant (x : RegIx) (b : Byte) :
    (s.setV x b).variant = s.variant := rfl
@[simp] theorem State.setV_exec (x : RegIx) (b : Byte) :
    (s.setV x b).exec = s.exec := rfl
@[simp] theorem State.setV_dtAlive (x : RegIx) (b : Byte) :
    (s.setV x b).dtAlive = s.dtAlive := rfl
@[simp] theorem State.setV_stAlive (x : RegIx) (b : Byte) :
    (s.setV x b).stAlive = s.stAlive := rfl
@[simp] theorem State.setV_reports (x : RegIx) (b : Byte) :
    (s.setV x b).reports = s.reports := rfl
@[simp] theorem State.setV_boot (x : RegIx) (b : Byte) :
    (s.setV x b).boot = s.boot := rfl
@[simp] theorem State.setV_draws (x : RegIx) (b : Byte) :
    (s.setV x b).draws = s.draws := rfl
@[simp] theorem State.setV_params (x : RegIx) (b : Byte) :
    (s.setV x b).params = s.params := rfl
@[simp] theorem State.setV_agenda (x : RegIx) (b : Byte) :
    (s.setV x b).agenda = s.agenda := rfl

/-! ### setPc -/

@[simp] theorem State.setPc_v (a : Word) :
    (s.setPc a).v = s.v := rfl
@[simp] theorem State.setPc_i (a : Word) :
    (s.setPc a).i = s.i := rfl
@[simp] theorem State.setPc_pc (a : Word) :
    (s.setPc a).pc = a := rfl
@[simp] theorem State.setPc_sp (a : Word) :
    (s.setPc a).sp = s.sp := rfl
@[simp] theorem State.setPc_stk (a : Word) :
    (s.setPc a).stk = s.stk := rfl
@[simp] theorem State.setPc_mem (a : Word) :
    (s.setPc a).mem = s.mem := rfl
@[simp] theorem State.setPc_disp (a : Word) :
    (s.setPc a).disp = s.disp := rfl
@[simp] theorem State.setPc_key (a : Word) :
    (s.setPc a).key = s.key := rfl
@[simp] theorem State.setPc_dt (a : Word) :
    (s.setPc a).dt = s.dt := rfl
@[simp] theorem State.setPc_st (a : Word) :
    (s.setPc a).st = s.st := rfl
@[simp] theorem State.setPc_run (a : Word) :
    (s.setPc a).run = s.run := rfl
@[simp] theorem State.setPc_variant (a : Word) :
    (s.setPc a).variant = s.variant := rfl
@[simp] theorem State.setPc_exec (a : Word) :
    (s.setPc a).exec = s.exec := rfl
@[simp] theorem State.setPc_dtAlive (a : Word) :
    (s.setPc a).dtAlive = s.dtAlive := rfl
@[simp] theorem State.setPc_stAlive (a : Word) :
    (s.setPc a).stAlive = s.stAlive := rfl
@[simp] theorem State.setPc_reports (a : Word) :
    (s.setPc a).reports = s.reports := rfl
@[simp] theorem State.setPc_boot (a : Word) :
    (s.setPc a).boot = s.boot := rfl
@[simp] theorem State.setPc_draws (a : Word) :
    (s.setPc a).draws = s.draws := rfl
@[simp] theorem State.setPc_params (a : Word) :
    (s.setPc a).params = s.params := rfl
@[simp] theorem State.setPc_agenda (a : Word) :
    (s.setPc a).agenda = s.agenda := rfl

/-! ### setI -/

@[simp] theorem State.setI_v (a : Word) :
    (s.setI a).v = s.v := rfl
@[simp] theorem State.setI_i (a : Word) :
    (s.setI a).i = a := rfl
@[simp] theorem State.setI_pc (a : Word) :
    (s.setI a).pc = s.pc := rfl
@[simp] theorem State.setI_sp (a : Word) :
    (s.setI a).sp = s.sp := rfl
@[simp] theorem State.setI_stk (a : Word) :
    (s.setI a).stk = s.stk := rfl
@[simp] theorem State.setI_mem (a : Word) :
    (s.setI a).mem = s.mem := rfl
@[simp] theorem State.setI_disp (a : Word) :
    (s.setI a).disp = s.disp := rfl
@[simp] theorem State.setI_key (a : Word) :
    (s.setI a).key = s.key := rfl
@[simp] theorem State.setI_dt (a : Word) :
    (s.setI a).dt = s.dt := rfl
@[simp] theorem State.setI_st (a : Word) :
    (s.setI a).st = s.st := rfl
@[simp] theorem State.setI_run (a : Word) :
    (s.setI a).run = s.run := rfl
@[simp] theorem State.setI_variant (a : Word) :
    (s.setI a).variant = s.variant := rfl
@[simp] theorem State.setI_exec (a : Word) :
    (s.setI a).exec = s.exec := rfl
@[simp] theorem State.setI_dtAlive (a : Word) :
    (s.setI a).dtAlive = s.dtAlive := rfl
@[simp] theorem State.setI_stAlive (a : Word) :
    (s.setI a).stAlive = s.stAlive := rfl
@[simp] theorem State.setI_reports (a : Word) :
    (s.setI a).reports = s.reports := rfl
@[simp] theorem State.setI_boot (a : Word) :
    (s.setI a).boot = s.boot := rfl
@[simp] theorem State.setI_draws (a : Word) :
    (s.setI a).draws = s.draws := rfl
@[simp] theorem State.setI_params (a : Word) :
    (s.setI a).params = s.params := rfl
@[simp] theorem State.setI_agenda (a : Word) :
    (s.setI a).agenda = s.agenda := rfl

/-! ### advancePc -/

@[simp] theorem State.advancePc_v :
    (s.advancePc).v = s.v := rfl
@[simp] theorem State.advancePc_i :
    (s.advancePc).i = s.i := rfl
@[simp] theorem State.advancePc_pc :
    (s.advancePc).pc = s.pc + 2 := rfl
@[simp] theorem State.advancePc_sp :
    (s.advancePc).sp = s.sp := rfl
@[simp] theorem State.advancePc_stk :
    (s.advancePc).stk = s.stk := rfl
@[simp] theorem State.advancePc_mem :
    (s.advancePc).mem = s.mem := rfl
@[simp] theorem State.advancePc_disp :
    (s.advancePc).disp = s.disp := rfl
@[simp] theorem State.advancePc_key :
    (s.advancePc).key = s.key := rfl
@[simp] theorem State.advancePc_dt :
    (s.advancePc).dt = s.dt := rfl
@[simp] theorem State.advancePc_st :
    (s.advancePc).st = s.st := rfl
@[simp] theorem State.advancePc_run :
    (s.advancePc).run = s.run := rfl
@[simp] theorem State.advancePc_variant :
    (s.advancePc).variant = s.variant := rfl
@[simp] theorem State.advancePc_exec :
    (s.advancePc).exec = s.exec := rfl
@[simp] theorem State.advancePc_dtAlive :
    (s.advancePc).dtAlive = s.dtAlive := rfl
@[simp] theorem State.advancePc_stAlive :
    (s.advancePc).stAlive = s.stAlive := rfl
@[simp] theorem State.advancePc_reports :
    (s.advancePc).reports = s.reports := rfl
@[simp] theorem State.advancePc_boot :
    (s.advancePc).boot = s.boot := rfl
@[simp] theorem State.advancePc_draws :
    (s.advancePc).draws = s.draws := rfl
@[simp] theorem State.advancePc_params :
    (s.advancePc).params = s.params := rfl
@[simp] theorem State.advancePc_agenda :
    (s.advancePc).agenda = s.agenda := rfl

/-! ### fetched -/

@[simp] theorem State.fetched_v :
    (s.fetched).v = s.v := rfl
@[simp] theorem State.fetched_i :
    (s.fetched).i = s.i := rfl
@[simp] theorem State.fetched_pc :
    (s.fetched).pc = s.pc + 2 := rfl
@[simp] theorem State.fetched_sp :
    (s.fetched).sp = s.sp := rfl
@[simp] theorem State.fetched_stk :
    (s.fetched).stk = s.stk := rfl
@[simp] theorem State.fetched_mem :
    (s.fetched).mem = s.mem := rfl
@[simp] theorem State.fetched_disp :
    (s.fetched).disp = s.disp := rfl
@[simp] theorem State.fetched_key :
    (s.fetched).key = s.key := rfl
@[simp] theorem State.fetched_dt :
    (s.fetched).dt = s.dt := rfl
@[simp] theorem State.fetched_st :
    (s.fetched).st = s.st := rfl
@[simp] theorem State.fetched_run :
    (s.fetched).run = s.run := rfl
@[simp] theorem State.fetched_variant :
    (s.fetched).variant = s.variant := rfl
@[simp] theorem State.fetched_exec :
    (s.fetched).exec = s.exec := rfl
@[simp] theorem State.fetched_dtAlive :
    (s.fetched).dtAlive = s.dtAlive := rfl
@[simp] theorem State.fetched_stAlive :
    (s.fetched).stAlive = s.stAlive := rfl
@[simp] theorem State.fetched_reports :
    (s.fetched).reports = s.reports := rfl
@[simp] theorem State.fetched_boot :
    (s.fetched).boot = s.boot := rfl
@[simp] theorem State.fetched_draws :
    (s.fetched).draws = s.draws := rfl
@[simp] theorem State.fetched_params :
    (s.fetched).params = s.params := rfl
@[simp] theorem State.fetched_agenda :
    (s.fetched).agenda = s.agenda := rfl

/-! ### halt -/

@[simp] theorem State.halt_v (c : Cause) :
    (s.halt c).v = s.v := rfl
@[simp] theorem State.halt_i (c : Cause) :
    (s.halt c).i = s.i := rfl
@[simp] theorem State.halt_pc (c : Cause) :
    (s.halt c).pc = s.pc := rfl
@[simp] theorem State.halt_sp (c : Cause) :
    (s.halt c).sp = s.sp := rfl
@[simp] theorem State.halt_stk (c : Cause) :
    (s.halt c).stk = s.stk := rfl
@[simp] theorem State.halt_mem (c : Cause) :
    (s.halt c).mem = s.mem := rfl
@[simp] theorem State.halt_disp (c : Cause) :
    (s.halt c).disp = s.disp := rfl
@[simp] theorem State.halt_key (c : Cause) :
    (s.halt c).key = s.key := rfl
@[simp] theorem State.halt_dt (c : Cause) :
    (s.halt c).dt = s.dt := rfl
@[simp] theorem State.halt_st (c : Cause) :
    (s.halt c).st = s.st := rfl
@[simp] theorem State.halt_run (c : Cause) :
    (s.halt c).run = s.run := rfl
@[simp] theorem State.halt_variant (c : Cause) :
    (s.halt c).variant = s.variant := rfl
@[simp] theorem State.halt_exec (c : Cause) :
    (s.halt c).exec = .halted c := rfl
@[simp] theorem State.halt_dtAlive (c : Cause) :
    (s.halt c).dtAlive = s.dtAlive := rfl
@[simp] theorem State.halt_stAlive (c : Cause) :
    (s.halt c).stAlive = s.stAlive := rfl
@[simp] theorem State.halt_reports (c : Cause) :
    (s.halt c).reports = s.reports := rfl
@[simp] theorem State.halt_boot (c : Cause) :
    (s.halt c).boot = s.boot := rfl
@[simp] theorem State.halt_draws (c : Cause) :
    (s.halt c).draws = s.draws := rfl
@[simp] theorem State.halt_params (c : Cause) :
    (s.halt c).params = s.params := rfl
@[simp] theorem State.halt_agenda (c : Cause) :
    (s.halt c).agenda = s.agenda := rfl

/-! ### report -/

@[simp] theorem State.report_v (w a : Word) :
    (s.report w a).v = s.v := rfl
@[simp] theorem State.report_i (w a : Word) :
    (s.report w a).i = s.i := rfl
@[simp] theorem State.report_pc (w a : Word) :
    (s.report w a).pc = s.pc := rfl
@[simp] theorem State.report_sp (w a : Word) :
    (s.report w a).sp = s.sp := rfl
@[simp] theorem State.report_stk (w a : Word) :
    (s.report w a).stk = s.stk := rfl
@[simp] theorem State.report_mem (w a : Word) :
    (s.report w a).mem = s.mem := rfl
@[simp] theorem State.report_disp (w a : Word) :
    (s.report w a).disp = s.disp := rfl
@[simp] theorem State.report_key (w a : Word) :
    (s.report w a).key = s.key := rfl
@[simp] theorem State.report_dt (w a : Word) :
    (s.report w a).dt = s.dt := rfl
@[simp] theorem State.report_st (w a : Word) :
    (s.report w a).st = s.st := rfl
@[simp] theorem State.report_run (w a : Word) :
    (s.report w a).run = s.run := rfl
@[simp] theorem State.report_variant (w a : Word) :
    (s.report w a).variant = s.variant := rfl
@[simp] theorem State.report_exec (w a : Word) :
    (s.report w a).exec = s.exec := rfl
@[simp] theorem State.report_dtAlive (w a : Word) :
    (s.report w a).dtAlive = s.dtAlive := rfl
@[simp] theorem State.report_stAlive (w a : Word) :
    (s.report w a).stAlive = s.stAlive := rfl
@[simp] theorem State.report_reports (w a : Word) :
    (s.report w a).reports = ⟨w, a⟩ :: s.reports := rfl
@[simp] theorem State.report_boot (w a : Word) :
    (s.report w a).boot = s.boot := rfl
@[simp] theorem State.report_draws (w a : Word) :
    (s.report w a).draws = s.draws := rfl
@[simp] theorem State.report_params (w a : Word) :
    (s.report w a).params = s.params := rfl
@[simp] theorem State.report_agenda (w a : Word) :
    (s.report w a).agenda = s.agenda := rfl

/-! ### popAgenda -/

@[simp] theorem State.popAgenda_v :
    (s.popAgenda).v = s.v := rfl
@[simp] theorem State.popAgenda_i :
    (s.popAgenda).i = s.i := rfl
@[simp] theorem State.popAgenda_pc :
    (s.popAgenda).pc = s.pc := rfl
@[simp] theorem State.popAgenda_sp :
    (s.popAgenda).sp = s.sp := rfl
@[simp] theorem State.popAgenda_stk :
    (s.popAgenda).stk = s.stk := rfl
@[simp] theorem State.popAgenda_mem :
    (s.popAgenda).mem = s.mem := rfl
@[simp] theorem State.popAgenda_disp :
    (s.popAgenda).disp = s.disp := rfl
@[simp] theorem State.popAgenda_key :
    (s.popAgenda).key = s.key := rfl
@[simp] theorem State.popAgenda_dt :
    (s.popAgenda).dt = s.dt := rfl
@[simp] theorem State.popAgenda_st :
    (s.popAgenda).st = s.st := rfl
@[simp] theorem State.popAgenda_run :
    (s.popAgenda).run = s.run := rfl
@[simp] theorem State.popAgenda_variant :
    (s.popAgenda).variant = s.variant := rfl
@[simp] theorem State.popAgenda_exec :
    (s.popAgenda).exec = s.exec := rfl
@[simp] theorem State.popAgenda_dtAlive :
    (s.popAgenda).dtAlive = s.dtAlive := rfl
@[simp] theorem State.popAgenda_stAlive :
    (s.popAgenda).stAlive = s.stAlive := rfl
@[simp] theorem State.popAgenda_reports :
    (s.popAgenda).reports = s.reports := rfl
@[simp] theorem State.popAgenda_boot :
    (s.popAgenda).boot = s.boot := rfl
@[simp] theorem State.popAgenda_draws :
    (s.popAgenda).draws = s.draws := rfl
@[simp] theorem State.popAgenda_params :
    (s.popAgenda).params = s.params := rfl
@[simp] theorem State.popAgenda_agenda :
    (s.popAgenda).agenda = s.agenda.tail := rfl

/-! ### drawByte -/

@[simp] theorem State.drawByte_fst : s.drawByte.1 = Config.freeByte s.draws := rfl
@[simp] theorem State.drawByte_v : s.drawByte.2.v = s.v := rfl
@[simp] theorem State.drawByte_i : s.drawByte.2.i = s.i := rfl
@[simp] theorem State.drawByte_pc : s.drawByte.2.pc = s.pc := rfl
@[simp] theorem State.drawByte_sp : s.drawByte.2.sp = s.sp := rfl
@[simp] theorem State.drawByte_stk : s.drawByte.2.stk = s.stk := rfl
@[simp] theorem State.drawByte_mem : s.drawByte.2.mem = s.mem := rfl
@[simp] theorem State.drawByte_disp : s.drawByte.2.disp = s.disp := rfl
@[simp] theorem State.drawByte_key : s.drawByte.2.key = s.key := rfl
@[simp] theorem State.drawByte_dt : s.drawByte.2.dt = s.dt := rfl
@[simp] theorem State.drawByte_st : s.drawByte.2.st = s.st := rfl
@[simp] theorem State.drawByte_run : s.drawByte.2.run = s.run := rfl
@[simp] theorem State.drawByte_variant : s.drawByte.2.variant = s.variant := rfl
@[simp] theorem State.drawByte_exec : s.drawByte.2.exec = s.exec := rfl
@[simp] theorem State.drawByte_dtAlive : s.drawByte.2.dtAlive = s.dtAlive := rfl
@[simp] theorem State.drawByte_stAlive : s.drawByte.2.stAlive = s.stAlive := rfl
@[simp] theorem State.drawByte_reports : s.drawByte.2.reports = s.reports := rfl
@[simp] theorem State.drawByte_boot : s.drawByte.2.boot = s.boot := rfl
@[simp] theorem State.drawByte_draws : s.drawByte.2.draws = s.draws + 1 := rfl
@[simp] theorem State.drawByte_params : s.drawByte.2.params = s.params := rfl
@[simp] theorem State.drawByte_agenda : s.drawByte.2.agenda = s.agenda := rfl

end Sys2Proof.Machine
end

