-- ==== Sys2Proof/Laws/Display.lean ====
section
/-! SUPPORT. The display: a cell after a write, and what drawing columns, rows and a whole sprite does to every cell and to
the collision record (43_display.md R131, R132). A sprite is at most 32 rows high and 64 columns wide, so the cells of one
drawing are pairwise distinct (R131 (f)). -/

namespace Sys2Proof.Machine

theorem Grid.cell_setCell (g : Grid) (y y' : Fin 32) (x x' : Fin 64) (b : Bool) :
    (g.setCell y x b).cell y' x' = if y' = y ∧ x' = x then b else g.cell y' x' := by
  simp only [Grid.cell, Grid.setCell, Vector.getElem_set]
  by_cases hy : y = y'
  · subst hy
    by_cases hx : x = x'
    · subst hx; simp
    · have : x.val ≠ x'.val := fun e => hx (Fin.ext e)
      simp [this, Ne.symm hx]
  · have : y.val ≠ y'.val := fun e => hy (Fin.ext e)
    simp [this, Ne.symm hy]

@[simp] theorem Grid.cell_blank (y : Fin 32) (x : Fin 64) : Grid.blank.cell y x = false := by
  simp [Grid.cell, Grid.blank]

/-- Two grids that show the same cells are equal. -/
theorem Grid.ext {g h : Grid} (e : ∀ y x, g.cell y x = h.cell y x) : g = h := by
  apply Vector.ext
  intro y hy
  apply Vector.ext
  intro x hx
  exact e ⟨y, hy⟩ ⟨x, hx⟩

theorem column_inj {x0 c d : Nat} (hc : c < 64) (hd : d < 64)
    (h : Fin.ofNat 64 (x0 + c) = Fin.ofNat 64 (x0 + d)) : c = d := by
  have : (x0 + c) % 64 = (x0 + d) % 64 := by simpa [Fin.ofNat] using congrArg Fin.val h
  omega

theorem row_inj {y0 r q : Nat} (hr : r < 32) (hq : q < 32)
    (h : Fin.ofNat 32 (y0 + r) = Fin.ofNat 32 (y0 + q)) : r = q := by
  have : (y0 + r) % 32 = (y0 + q) % 32 := by simpa [Fin.ofNat] using congrArg Fin.val h
  omega

/-! ### Columns -/

section Columns
variable (y : Fin 32) (x0 : Nat) (b : Byte)

theorem drawColumns_other (left col : Nat) (acc : Grid × Bool) (y' : Fin 32) (x' : Fin 64)
    (h : ∀ c, col ≤ c → c < col + left → ¬ (y' = y ∧ x' = Fin.ofNat 64 (x0 + c))) :
    (drawColumns y x0 b col left acc).1.cell y' x' = acc.1.cell y' x' := by
  induction left generalizing col acc with
  | zero => rfl
  | succ n ih =>
    rw [drawColumns, ih _ _ (fun c h1 h2 => h c (by omega) (by omega)), drawPixel, Grid.cell_setCell,
      if_neg (h col (le_refl _) (by omega))]

theorem drawColumns_at (left col c : Nat) (acc : Grid × Bool) (h1 : col ≤ c) (h2 : c < col + left)
    (hw : col + left ≤ 64) :
    (drawColumns y x0 b col left acc).1.cell y (Fin.ofNat 64 (x0 + c)) =
      (acc.1.cell y (Fin.ofNat 64 (x0 + c)) ^^ b.getLsbD (7 - c)) := by
  induction left generalizing col acc with
  | zero => omega
  | succ n ih =>
    rw [drawColumns]
    by_cases hc : c = col
    · subst hc
      rw [drawColumns_other]
      · simp [drawPixel, Grid.cell_setCell]
      · rintro d hd1 hd2 ⟨-, hx⟩
        have := column_inj (by omega) (by omega) hx
        omega
    · rw [ih _ _ (by omega) (by omega) (by omega), drawPixel, Grid.cell_setCell, if_neg]
      rintro ⟨-, hx⟩
      exact hc (column_inj (by omega) (by omega) hx)

theorem drawColumns_hit (left col : Nat) (acc : Grid × Bool) (hw : col + left ≤ 64) :
    (drawColumns y x0 b col left acc).2 = true ↔
      acc.2 = true ∨ ∃ c, col ≤ c ∧ c < col + left ∧ acc.1.cell y (Fin.ofNat 64 (x0 + c)) = true ∧
        b.getLsbD (7 - c) = true := by
  induction left generalizing col acc with
  | zero => simp [drawColumns]; omega
  | succ n ih =>
    rw [drawColumns, ih _ _ (by omega)]
    have keep : ∀ c, col + 1 ≤ c → c < col + 1 + n →
        (drawPixel y (Fin.ofNat 64 (x0 + col)) (b.getLsbD (7 - col)) acc).1.cell y (Fin.ofNat 64 (x0 + c)) =
          acc.1.cell y (Fin.ofNat 64 (x0 + c)) := fun c h1 h2 => by
      rw [drawPixel, Grid.cell_setCell, if_neg]
      rintro ⟨-, hx⟩
      have := column_inj (by omega) (by omega) hx
      omega
    constructor
    · rintro (h | ⟨c, h1, h2, h3, h4⟩)
      · simp only [drawPixel, Bool.or_eq_true, Bool.and_eq_true] at h
        rcases h with h | ⟨h3, h4⟩
        · exact Or.inl h
        · exact Or.inr ⟨col, le_refl _, by omega, h3, h4⟩
      · exact Or.inr ⟨c, by omega, by omega, by rwa [keep c h1 h2] at h3, h4⟩
    · rintro (h | ⟨c, h1, h2, h3, h4⟩)
      · exact Or.inl (by simp [drawPixel, h])
      · by_cases hc : c = col
        · subst hc; exact Or.inl (by simp only [drawPixel, h3, h4]; simp)
        · exact Or.inr ⟨c, by omega, by omega, by rwa [keep c (by omega) (by omega)], h4⟩

end Columns

/-! ### Rows -/

section Rows
variable (x0 y0 : Nat)

theorem drawRows_other (bs : List Byte) (row : Nat) (acc : Grid × Bool) (y : Fin 32) (x : Fin 64)
    (h : ∀ r c, r < bs.length → c < 8 → ¬ (y = Fin.ofNat 32 (y0 + (row + r)) ∧ x = Fin.ofNat 64 (x0 + c))) :
    (drawRows x0 y0 row bs acc).1.cell y x = acc.1.cell y x := by
  induction bs generalizing row acc with
  | nil => rfl
  | cons b bs ih =>
    rw [drawRows, ih]
    · exact drawColumns_other _ _ _ _ _ _ _ _ fun c _ h2 e => h 0 c (by simp) (by omega) (by simpa using e)
    · intro r c hr hc e
      exact h (r + 1) c (by simpa using hr) hc (by simpa [Nat.add_assoc, Nat.add_comm 1 r] using e)

theorem drawRows_at (bs : List Byte) (row r c : Nat) (acc : Grid × Bool) (hr : r < bs.length) (hc : c < 8)
    (hh : row + bs.length ≤ 32) :
    (drawRows x0 y0 row bs acc).1.cell (Fin.ofNat 32 (y0 + (row + r))) (Fin.ofNat 64 (x0 + c)) =
      (acc.1.cell (Fin.ofNat 32 (y0 + (row + r))) (Fin.ofNat 64 (x0 + c)) ^^ bs[r].getLsbD (7 - c)) := by
  induction bs generalizing row r acc with
  | nil => simp at hr
  | cons b bs ih =>
    simp only [List.length_cons] at hr hh
    rw [drawRows]
    cases r with
    | zero =>
      rw [drawRows_other]
      · simpa using drawColumns_at _ x0 b 8 0 c acc (by omega) (by omega) (by omega)
      · rintro r d hr2 hd ⟨hy, -⟩
        have := row_inj (by omega) (by omega) hy
        omega
    | succ r =>
      have := ih (row + 1) r (drawColumns (Fin.ofNat 32 (y0 + row)) x0 b 0 8 acc) (by omega) (by omega)
      rw [show row + (r + 1) = row + 1 + r by omega, this, drawColumns_other]
      · simp
      · rintro d - - ⟨hy, -⟩
        have := row_inj (r := row + 1 + r) (q := row) (by omega) (by omega) hy
        omega

theorem drawRows_hit (bs : List Byte) (row : Nat) (acc : Grid × Bool) (hh : row + bs.length ≤ 32) :
    (drawRows x0 y0 row bs acc).2 = true ↔
      acc.2 = true ∨ ∃ r c, ∃ hr : r < bs.length, c < 8 ∧
        acc.1.cell (Fin.ofNat 32 (y0 + (row + r))) (Fin.ofNat 64 (x0 + c)) = true ∧
          bs[r].getLsbD (7 - c) = true := by
  induction bs generalizing row acc with
  | nil => simp [drawRows]
  | cons b bs ih =>
    simp only [List.length_cons] at hh
    rw [drawRows, ih _ _ (by omega), drawColumns_hit _ _ _ _ _ _ (by omega)]
    have keep : ∀ r c, r < bs.length →
        (drawColumns (Fin.ofNat 32 (y0 + row)) x0 b 0 8 acc).1.cell (Fin.ofNat 32 (y0 + (row + 1 + r)))
            (Fin.ofNat 64 (x0 + c)) =
          acc.1.cell (Fin.ofNat 32 (y0 + (row + (r + 1)))) (Fin.ofNat 64 (x0 + c)) := fun r c hr => by
      rw [drawColumns_other, show row + 1 + r = row + (r + 1) by omega]
      rintro d - - ⟨hy, -⟩
      have := row_inj (r := row + 1 + r) (q := row) (by omega) (by omega) hy
      omega
    constructor
    · rintro ((h | ⟨c, -, h2, h3, h4⟩) | ⟨r, c, hr, hc, h3, h4⟩)
      · exact Or.inl h
      · exact Or.inr ⟨0, c, by simp, by omega, by simpa using h3, by simpa using h4⟩
      · exact Or.inr ⟨r + 1, c, by simpa using hr, hc, by rwa [keep r c hr] at h3, by simpa using h4⟩
    · rintro (h | ⟨r, c, hr, hc, h3, h4⟩)
      · exact Or.inl (Or.inl h)
      · cases r with
        | zero => exact Or.inl (Or.inr ⟨c, by omega, by omega, by simpa using h3, by simpa using h4⟩)
        | succ r =>
          have hr' : r < bs.length := by simpa using hr
          exact Or.inr ⟨r, c, hr', hc, by rwa [keep r c hr'], by simpa using h4⟩

end Rows

/-! ### A whole sprite (R131) -/

section Sprite
variable (g : Grid) (x0 y0 : Nat) (sprite : List Byte)

/-- Every covered cell is the old cell XOR the sprite bit. -/
theorem drawSprite_at (hh : sprite.length ≤ 32) {r c : Nat} (hr : r < sprite.length) (hc : c < 8) :
    (drawSprite g x0 y0 sprite).1.cell (Fin.ofNat 32 (y0 + r)) (Fin.ofNat 64 (x0 + c)) =
      (g.cell (Fin.ofNat 32 (y0 + r)) (Fin.ofNat 64 (x0 + c)) ^^ sprite[r].getLsbD (7 - c)) := by
  simpa [drawSprite] using drawRows_at x0 y0 sprite 0 r c (g, false) hr hc (by omega)

/-- Every other cell keeps its value. -/
theorem drawSprite_other (y : Fin 32) (x : Fin 64)
    (h : ∀ r c, r < sprite.length → c < 8 → ¬ (y = Fin.ofNat 32 (y0 + r) ∧ x = Fin.ofNat 64 (x0 + c))) :
    (drawSprite g x0 y0 sprite).1.cell y x = g.cell y x := by
  simpa [drawSprite] using drawRows_other x0 y0 sprite 0 (g, false) y x (by simpa using h)

/-- A collision is a covered cell that was set under a sprite bit that is set. -/
theorem drawSprite_hit (hh : sprite.length ≤ 32) :
    (drawSprite g x0 y0 sprite).2 = true ↔
      ∃ r c, ∃ hr : r < sprite.length, c < 8 ∧
        g.cell (Fin.ofNat 32 (y0 + r)) (Fin.ofNat 64 (x0 + c)) = true ∧ sprite[r].getLsbD (7 - c) = true := by
  simpa [drawSprite] using drawRows_hit x0 y0 sprite 0 (g, false) (by omega)

end Sprite

end Sys2Proof.Machine
end

