-- ==== Sys2Proof/Laws/Memory.lean ====
section
/-! SUPPORT. The laws of memory: a read after a write, the canonical form kept by every operation, a block of bytes written
and read, and the contents after the boot. -/

namespace Sys2Proof.Machine

/-! ### Read after write -/

theorem Memory.read_of_all_ne {m : Memory} {a : Nat} (h : ∀ c ∈ m, c.1 ≠ a) : m.read a = 0 := by
  induction m with
  | nil => rfl
  | cons c m ih =>
    simp only [Memory.read]
    rw [if_neg (h c (by simp)), ih (fun c hc => h c (by simp [hc]))]

theorem Memory.read_write (m : Memory) (hm : m.Pairwise (fun a b => a.1 < b.1)) (a k : Nat) (b : Byte) :
    (m.write a b).read k = if k = a then b else m.read k := by
  induction m with
  | nil =>
    by_cases hk : k = a
    · subst hk; simp only [Memory.write]; split <;> simp [Memory.read, *]
    · have hk' : a ≠ k := Ne.symm hk
      simp only [Memory.write]; split <;> simp [Memory.read, hk']
  | cons c m ih =>
    obtain ⟨j, d⟩ := c
    have hlt : ∀ c ∈ m, j < c.1 := (List.pairwise_cons.mp hm).1
    have absent : ∀ n, n ≤ j → Memory.read m n = 0 := fun n hn =>
      Memory.read_of_all_ne fun c hc => by have := hlt c hc; omega
    have ih := ih (List.pairwise_cons.mp hm).2
    simp only [Memory.write]
    rcases Nat.lt_trichotomy a j with h | rfl | h
    · rw [if_pos h]
      by_cases hk : k = a
      · subst hk; split <;> simp [Memory.read, absent k (by omega), *]; omega
      · have hk' : a ≠ k := Ne.symm hk
        split <;> simp [Memory.read, hk']
    · rw [if_neg (lt_irrefl _), if_pos rfl]
      by_cases hk : k = a
      · subst hk; split <;> simp [Memory.read, absent k (le_refl _), *]
      · have hk' : a ≠ k := Ne.symm hk
        split <;> simp [Memory.read, hk']
    · rw [if_neg (by omega), if_neg (by omega)]
      by_cases hk : j = k
      · have hk' : k ≠ a := by omega
        simp [Memory.read, hk, hk']
      · simp [Memory.read, hk, ih]

theorem Memory.read_write_same (m : Memory) (hm : m.wf) (a : Nat) (b : Byte) : (m.write a b).read a = b := by
  simp [Memory.read_write m hm.1]

/-- A write leaves every other address alone; this needs no canonical form. -/
theorem Memory.read_write_other (m : Memory) {a k : Nat} (b : Byte) (h : k ≠ a) :
    (m.write a b).read k = m.read k := by
  have h' : a ≠ k := Ne.symm h
  induction m with
  | nil => simp only [Memory.write]; split <;> simp [Memory.read, h']
  | cons c m ih =>
    obtain ⟨j, d⟩ := c
    simp only [Memory.write]
    split
    · split <;> simp [Memory.read, h']
    · split
      · rename_i hj
        subst hj
        split <;> simp [Memory.read, h']
      · simp [Memory.read, ih]

/-! ### The canonical form -/

theorem Memory.mem_write {m : Memory} {a : Nat} {b : Byte} {c : Host.Cell} (h : c ∈ m.write a b) :
    c ∈ m ∨ c = (a, b) ∧ b ≠ 0 := by
  induction m with
  | nil =>
    simp only [Memory.write] at h
    split at h <;> simp_all
  | cons d m ih =>
    obtain ⟨j, e⟩ := d
    simp only [Memory.write] at h
    split at h
    · split at h <;> simp_all
      tauto
    · split at h
      · split at h <;> simp_all
        tauto
      · simp only [List.mem_cons] at h ⊢
        rcases h with h | h
        · exact Or.inl (Or.inl h)
        · rcases ih h with h | h
          · exact Or.inl (Or.inr h)
          · exact Or.inr h

/-- A write inside the address space keeps the canonical form. -/
theorem Memory.write_wf {m : Memory} (hm : m.wf) {a : Nat} (ha : a < 4096) (b : Byte) : (m.write a b).wf := by
  refine ⟨?_, fun c hc => ?_⟩
  · obtain ⟨hp, -⟩ := hm
    induction m with
    | nil => simp only [Memory.write]; split <;> simp
    | cons d m ih =>
      obtain ⟨j, e⟩ := d
      obtain ⟨h1, h2⟩ := List.pairwise_cons.mp hp
      simp only [Memory.write]
      split
      · rename_i hlt
        split
        · exact hp
        · refine List.pairwise_cons.mpr ⟨fun c hc => ?_, hp⟩
          rcases List.mem_cons.mp hc with rfl | hc
          · exact hlt
          · exact lt_trans hlt (h1 c hc)
      · split
        · rename_i heq
          split
          · exact h2
          · exact List.pairwise_cons.mpr ⟨fun c hc => by simpa [heq] using h1 c hc, h2⟩
        · rename_i hge hne
          refine List.pairwise_cons.mpr ⟨fun c hc => ?_, ih h2⟩
          rcases Memory.mem_write hc with hc | ⟨rfl, -⟩
          · exact h1 c hc
          · simp only; omega
  · rcases Memory.mem_write hc with hc | ⟨rfl, hb⟩
    · exact hm.2 c hc
    · exact ⟨ha, hb⟩

theorem Memory.wf_nil : Memory.wf [] := by decide

/-! ### Runs of cells, and memory after the boot (R192) -/

theorem Memory.mem_cellsFrom {base : Nat} {bs : List Byte} {c : Host.Cell} (h : c ∈ Memory.cellsFrom base bs) :
    base ≤ c.1 ∧ c.1 < base + bs.length ∧ c.2 ≠ 0 := by
  induction bs generalizing base with
  | nil => simp [Memory.cellsFrom] at h
  | cons b bs ih =>
    simp only [Memory.cellsFrom] at h
    split at h
    · obtain ⟨h1, h2, h3⟩ := ih h
      exact ⟨by omega, by simp; omega, h3⟩
    · rename_i hb
      rcases List.mem_cons.mp h with rfl | h
      · exact ⟨le_refl _, by simp, hb⟩
      · obtain ⟨h1, h2, h3⟩ := ih h
        exact ⟨by omega, by simp; omega, h3⟩

theorem Memory.pairwise_cellsFrom (base : Nat) (bs : List Byte) :
    (Memory.cellsFrom base bs).Pairwise (fun a b => a.1 < b.1) := by
  induction bs generalizing base with
  | nil => simp [Memory.cellsFrom]
  | cons b bs ih =>
    simp only [Memory.cellsFrom]
    split
    · exact ih _
    · refine List.pairwise_cons.mpr ⟨fun c hc => ?_, ih _⟩
      have := (Memory.mem_cellsFrom hc).1
      simp only; omega

theorem Memory.read_append (m n : Memory) (a : Nat) (h : ∀ c ∈ m, c.2 ≠ 0) :
    (m ++ n).read a = if m.read a = 0 then n.read a else m.read a := by
  induction m with
  | nil => simp [Memory.read]
  | cons c m ih =>
    obtain ⟨j, b⟩ := c
    have hb : b ≠ 0 := h (j, b) (by simp)
    simp only [List.cons_append, Memory.read]
    by_cases hj : j = a
    · have hb' : ¬ b = 0#8 := hb
      simp [hj, hb']
    · simp [hj, ih (fun c hc => h c (by simp [hc]))]

theorem Memory.read_cellsFrom (base : Nat) (bs : List Byte) (a : Nat) :
    (Memory.cellsFrom base bs).read a =
      if h : base ≤ a ∧ a < base + bs.length then bs[a - base]'(by omega) else 0 := by
  induction bs generalizing base with
  | nil => simp [Memory.cellsFrom, Memory.read]
  | cons b bs ih =>
    have tail : (Memory.cellsFrom (base + 1) bs).read a =
        if h : base < a ∧ a < base + (b :: bs).length then (b :: bs)[a - base]'(by simp at h ⊢; omega) else 0 := by
      rw [ih]
      by_cases h1 : base + 1 ≤ a ∧ a < base + 1 + bs.length
      · have e : a - base = (a - (base + 1)) + 1 := by omega
        rw [dif_pos h1, dif_pos (by simp; omega)]
        simp [e]
      · rw [dif_neg h1, dif_neg (by simp; omega)]
    simp only [Memory.cellsFrom]
    split
    · rename_i hb
      rw [tail]
      by_cases h0 : base = a
      · subst h0; simp [hb]
      · by_cases h1 : base < a ∧ a < base + (b :: bs).length
        · rw [dif_pos h1, dif_pos ⟨by omega, h1.2⟩]
        · rw [dif_neg h1, dif_neg (by omega)]
    · simp only [Memory.read]
      by_cases h0 : base = a
      · subst h0; simp
      · rw [if_neg h0, tail]
        by_cases h1 : base < a ∧ a < base + (b :: bs).length
        · rw [dif_pos h1, dif_pos ⟨by omega, h1.2⟩]
        · rw [dif_neg h1, dif_neg (by omega)]

theorem length_glyphBytes (g : GlyphTable) : (glyphBytes g).length = 80 := by
  have h : ∀ l : List Glyph, ((l.map (·.toList)).flatten).length = 5 * l.length := by
    intro l
    induction l with
    | nil => rfl
    | cons a l ih => simp only [List.map_cons, List.flatten_cons, List.length_append, ih, List.length_cons,
        Vector.length_toList]; omega
  simpa [glyphBytes] using h g.toList

theorem Memory.loaded_wf (g : GlyphTable) {image : List Byte} (h : imageWf image = true) :
    (Memory.loaded g image).wf := by
  have hlen : image.length ≤ 3584 := by simpa [imageWf] using h
  have hg : ∀ c ∈ Memory.cellsFrom 0 (glyphBytes g), c.1 < 80 ∧ c.2 ≠ 0 := fun c hc => by
    have := Memory.mem_cellsFrom hc
    rw [length_glyphBytes] at this
    exact ⟨by omega, this.2.2⟩
  have hi : ∀ c ∈ Memory.cellsFrom 0x200 image, 0x200 ≤ c.1 ∧ c.1 < 4096 ∧ c.2 ≠ 0 := fun c hc => by
    have := Memory.mem_cellsFrom hc
    exact ⟨this.1, by omega, this.2.2⟩
  refine ⟨List.pairwise_append.mpr ⟨Memory.pairwise_cellsFrom _ _, Memory.pairwise_cellsFrom _ _, ?_⟩, ?_⟩
  · intro c hc d hd
    have := (hg c hc).1
    have := (hi d hd).1
    omega
  · intro c hc
    rcases List.mem_append.mp hc with hc | hc
    · exact ⟨by have := (hg c hc).1; omega, (hg c hc).2⟩
    · exact (hi c hc).2

/-- Memory after the boot: the glyph table below 0x050, the image from 0x200, 0 everywhere else (R192). -/
theorem Memory.read_loaded (g : GlyphTable) (image : List Byte) (a : Nat) :
    (Memory.loaded g image).read a =
      if h : a < 80 then (glyphBytes g)[a]'(by rw [length_glyphBytes]; exact h)
      else if h : 0x200 ≤ a ∧ a < 0x200 + image.length then image[a - 0x200]'(by omega) else 0 := by
  rw [Memory.loaded, Memory.read_append _ _ _ (fun c hc => (Memory.mem_cellsFrom hc).2.2)]
  simp only [Memory.read_cellsFrom, length_glyphBytes]
  by_cases h : a < 80
  · rw [dif_pos (by omega : 0 ≤ a ∧ a < 0 + 80), dif_pos h]
    simp only [Nat.sub_zero]
    split
    · rename_i h0
      rw [dif_neg (by omega), h0]
    · rfl
  · rw [dif_neg (by omega : ¬ (0 ≤ a ∧ a < 0 + 80)), dif_neg h]
    simp

/-! ### Blocks (R45, R46) -/

@[simp] theorem State.dataAddr_lt (s : State) (k : Nat) : s.dataAddr k < 4096 := Nat.mod_lt _ (by decide)

/-- Where CheckData lets an access of n bytes through under the default policy, the k-th address is I + k (R46). -/
theorem State.dataAddr_eq {s : State} {n k : Nat} (hp : s.params.dataOob = .fault) (h : s.dataFaults n = false)
    (hk : k < n) : s.dataAddr k = s.i.toNat + k := by
  have : ¬ (1 ≤ n ∧ s.i.toNat + n - 1 > 0xFFF) := by simpa [State.dataFaults, hp] using h
  exact Nat.mod_eq_of_lt (by omega)

/-- Two bytes of one access have two addresses. -/
theorem State.dataAddr_inj {s : State} {j k : Nat} (hj : j < 4096) (hk : k < 4096)
    (h : s.dataAddr j = s.dataAddr k) : j = k := by
  unfold State.dataAddr at h
  omega

theorem State.writeBlock_eq (bs : List Byte) (s : State) (k : Nat) :
    s.writeBlock k bs = { s with mem := (s.writeBlock k bs).mem } := by
  induction bs generalizing s k with
  | nil => rfl
  | cons b bs ih => rw [State.writeBlock, ih]

theorem State.writeBlock_wf (bs : List Byte) (s : State) (k : Nat) (h : s.mem.wf) : (s.writeBlock k bs).mem.wf := by
  induction bs generalizing s k with
  | nil => exact h
  | cons b bs ih => exact ih _ _ (Memory.write_wf h (s.dataAddr_lt k) b)

/-- An address that is none of a block's reads as before. -/
theorem State.read_writeBlock_other (bs : List Byte) (s : State) (k a : Nat)
    (h : ∀ j, j < bs.length → a ≠ s.dataAddr (k + j)) : (s.writeBlock k bs).mem.read a = s.mem.read a := by
  induction bs generalizing s k with
  | nil => rfl
  | cons b bs ih =>
    have h0 : a ≠ s.dataAddr k := by simpa using h 0 (by simp)
    rw [State.writeBlock, ih]
    · exact Memory.read_write_other _ b h0
    · intro j hj
      have := h (j + 1) (by simpa using hj)
      simpa [State.dataAddr, Nat.add_assoc, Nat.add_comm 1 j] using this

/-- The j-th byte of a block of at most 4096 stands at the j-th address. -/
theorem State.read_writeBlock_at (bs : List Byte) (s : State) (k j : Nat) (hm : s.mem.wf) (hj : j < bs.length)
    (hlen : k + bs.length ≤ 4096) : (s.writeBlock k bs).mem.read (s.dataAddr (k + j)) = bs[j] := by
  induction bs generalizing s k j with
  | nil => simp at hj
  | cons b bs ih =>
    simp only [List.length_cons] at hj hlen
    have hw := Memory.write_wf hm (s.dataAddr_lt k) b
    rw [State.writeBlock]
    cases j with
    | zero =>
      rw [State.read_writeBlock_other]
      · simpa using Memory.read_write_same _ hm _ b
      · intro j hj h
        have := State.dataAddr_inj (s := s) (by omega) (by omega) h
        omega
    | succ j =>
      have := ih { s with mem := s.mem.write (s.dataAddr k) b } (k + 1) j hw (by omega) (by omega)
      simpa [State.dataAddr, Nat.add_assoc, Nat.add_comm 1 j] using this

@[simp] theorem State.length_readBlock (s : State) (n : Nat) : (s.readBlock n).length = n := by
  simp [State.readBlock]

@[simp] theorem State.getElem_readBlock (s : State) (n j : Nat) (h : j < (s.readBlock n).length) :
    (s.readBlock n)[j] = s.mem.read (s.dataAddr j) := by
  simp [State.readBlock, State.readData]

/-- CheckData (R46): the cause and nothing else, or the access. -/
theorem State.withData_cases (s : State) (n : Nat) (f : State → State) :
    s.dataFaults n = true ∧ s.withData n f = s.halt .memOutOfBounds ∨
      s.dataFaults n = false ∧ s.withData n f = f s := by
  unfold State.withData
  cases s.dataFaults n <;> simp

end Sys2Proof.Machine
end

