-- ==== Sys2Proof/Laws/Registers.lean ====
section
/-! SUPPORT. Reading a register after a write, and one lemma for each shared operation that writes registers: what every
register holds after it, and that nothing else changes. -/

namespace Sys2Proof.Machine

theorem State.readV_setV (s : State) (x y : RegIx) (b : Byte) :
    (s.setV x b).readV y = if y = x then b else s.readV y := by
  simp only [State.readV, State.setV, Vector.getElem_set]
  by_cases h : y = x
  · simp [h]
  · have : x.val ≠ y.val := fun e => h (Fin.ext e.symm)
    simp [h, this]

@[simp] theorem State.readV_setV_same (s : State) (x : RegIx) (b : Byte) : (s.setV x b).readV x = b := by
  simp [State.readV_setV]

theorem State.readV_setV_other (s : State) {x y : RegIx} (b : Byte) (h : y ≠ x) :
    (s.setV x b).readV y = s.readV y := by
  simp [State.readV_setV, h]

/-- Reading a register looks at V alone. -/
theorem State.readV_congr {s t : State} (h : t.v = s.v) (x : RegIx) : t.readV x = s.readV x := by
  simp [State.readV, h]

@[simp] theorem State.readV_mk (s : State) (x : RegIx) : s.v[x.val] = s.readV x := rfl

/-- Two register files that read alike are equal. -/
theorem State.v_ext {s t : State} (h : ∀ x, t.readV x = s.readV x) : t.v = s.v := by
  apply Vector.ext
  intro k hk
  exact h ⟨k, hk⟩

/-! ### A result and a flag (R100) -/

theorem State.writeResultFlag_eq (s : State) (x : RegIx) (r : Byte) (f : Bool) :
    s.writeResultFlag x r f = { s with v := (s.writeResultFlag x r f).v } := by
  unfold State.writeResultFlag
  split <;> rfl

theorem State.readV_writeResultFlag (s : State) (x y : RegIx) (r : Byte) (f : Bool) :
    (s.writeResultFlag x r f).readV y =
      if y = x ∧ (x = vf → s.params.flagOrder = .resultLast) then r
      else if y = vf then flagByte f else s.readV y := by
  unfold State.writeResultFlag
  split <;> rename_i h <;> simp only [State.readV_setV, h] <;>
    by_cases hx : y = x <;> by_cases hv : y = vf <;> simp_all

/-- VF after a flag-writing instruction whose result goes elsewhere is the flag (R100). -/
theorem State.readV_writeResultFlag_vf (s : State) {x : RegIx} (r : Byte) (f : Bool) (h : x ≠ vf) :
    (s.writeResultFlag x r f).readV vf = flagByte f := by
  rw [State.readV_writeResultFlag, if_neg (fun e => h e.1.symm), if_pos rfl]

/-- A flag-writing instruction's result register, unless it is VF. -/
theorem State.readV_writeResultFlag_result (s : State) {x : RegIx} (r : Byte) (f : Bool) (h : x ≠ vf) :
    (s.writeResultFlag x r f).readV x = r := by
  rw [State.readV_writeResultFlag, if_pos ⟨rfl, fun e => absurd e h⟩]

theorem State.writeLogic_eq (s : State) (x : RegIx) (r : Byte) :
    s.writeLogic x r = { s with v := (s.writeLogic x r).v } := by
  unfold State.writeLogic
  split
  · exact s.writeResultFlag_eq x r false
  · rfl
  · rfl

/-- OR, AND, XOR in Base write a result and the flag 0 (R103). -/
theorem State.writeLogic_base (s : State) (x : RegIx) (r : Byte) (h : s.variant = .base) :
    s.writeLogic x r = s.writeResultFlag x r false := by
  simp [State.writeLogic, h]

/-- OR, AND, XOR in the extended variants write the result alone (R103). -/
theorem State.writeLogic_extended (s : State) (x : RegIx) (r : Byte) (h : s.variant ≠ .base) :
    s.writeLogic x r = s.setV x r := by
  unfold State.writeLogic
  split <;> simp_all

/-! ### A run of registers (R152) -/

theorem getElem_writeRegisters (bs : List Byte) (v : Vector Byte 16) (k j : Nat) (hj : j < 16) :
    (writeRegisters v k bs)[j] =
      if h : k ≤ j ∧ j < k + bs.length then bs[j - k]'(by omega) else v[j] := by
  induction bs generalizing v k with
  | nil => rw [dif_neg (by simp)]; rfl
  | cons b bs ih =>
    simp only [writeRegisters, ih, Vector.getElem_setIfInBounds, List.length_cons]
    by_cases hk : k = j
    · subst hk; simp
    · by_cases h1 : k + 1 ≤ j ∧ j < k + 1 + bs.length
      · have e : j - k = (j - (k + 1)) + 1 := by omega
        rw [dif_pos h1, dif_pos (by omega)]
        simp [e]
      · rw [dif_neg h1, dif_neg (by omega)]
        simp [hk]

/-! ### Skips, the advance of I (R88, R151) -/

theorem State.skipIf_eq (s : State) (b : Bool) :
    s.skipIf b = { s with pc := if b then s.pc + 2 else s.pc } := by
  cases b <;> rfl

theorem State.advanceIndex_eq (s : State) (x : RegIx) :
    s.advanceIndex x =
      { s with i := if s.variant = .base then s.i + BitVec.ofNat 16 (x.val + 1) else s.i } := by
  obtain ⟨v, i, pc, sp, stk, mem, disp, key, dt, st, run, variant, _⟩ := s
  cases variant <;> rfl

end Sys2Proof.Machine
end

