-- ==== Sys2Proof/Laws/Stack.lean ====
section
/-! SUPPORT. The call stack: what a push and a pop answer, and when they answer nothing (R16, R80, R82). -/

namespace Sys2Proof.Machine

theorem State.push_full {s : State} (a : Word) (h : s.params.stackUsable.entries ≤ s.sp.val) : s.push a = none := by
  simp [State.push, Nat.not_lt.mpr h]

/-- A push with room writes one cell and SP, and nothing else. -/
theorem State.push_room {s : State} (a : Word) (h : s.sp.val < s.params.stackUsable.entries) :
    ∃ h16 : s.sp.val < 16, s.push a =
      some { s with stk := s.stk.set s.sp.val a h16, sp := ⟨s.sp.val + 1, by omega⟩ } := by
  have h16 := Nat.lt_of_lt_of_le h (StackUsable.entries_le _)
  exact ⟨h16, by simp [State.push, h]⟩

theorem State.pop_empty {s : State} (h : s.sp.val = 0) : s.pop = none := by
  simp [State.pop, h]

/-- A pop of a stack that is not empty writes SP alone. -/
theorem State.pop_nonempty {s : State} (h : s.sp.val ≠ 0) :
    s.pop = some (s.stk[s.sp.val - 1], { s with sp := ⟨s.sp.val - 1, by omega⟩ }) := by
  simp [State.pop, h]

end Sys2Proof.Machine
end

