-- ==== Sys2Proof/Laws/Frames.lean ====
section
/-! SUPPORT. The frame of each shared operation: what it leaves alone (`Footprint.Frames`), said once, and the two ways to
put frames together. -/

namespace Sys2Proof.Machine

/-! ### Frames in general -/

theorem Footprint.Frames.refl (f : Footprint) (s : State) : f.Frames s s := by
  constructor <;> intros <;> rfl

theorem Footprint.Frames.trans {f : Footprint} {s t u : State} (a : f.Frames s t) (b : f.Frames t u) :
    f.Frames s u where
  v r h := (b.v r h).trans (a.v r h)
  i h := (b.i h).trans (a.i h)
  pc h := (b.pc h).trans (a.pc h)
  sp h := (b.sp h).trans (a.sp h)
  stk k h := (b.stk k h).trans (a.stk k h)
  mem x h := (b.mem x h).trans (a.mem x h)
  disp h := (b.disp h).trans (a.disp h)
  dt h := (b.dt h).trans (a.dt h)
  st h := (b.st h).trans (a.st h)
  exec h := (b.exec h).trans (a.exec h)
  draws h := (b.draws h).trans (a.draws h)
  key := b.key.trans a.key
  run := b.run.trans a.run
  variant := b.variant.trans a.variant
  dtAlive := b.dtAlive.trans a.dtAlive
  stAlive := b.stAlive.trans a.stAlive
  reports := b.reports.trans a.reports
  boot := b.boot.trans a.boot
  params := b.params.trans a.params
  agenda := b.agenda.trans a.agenda

/-- The footprint `g` allows every write that `f` allows. -/
structure Footprint.Within (f g : Footprint) : Prop where
  v : ∀ r, f.v r → g.v r := by intro r h; exact h.elim
  i : f.i → g.i := by intro h; exact h.elim
  pc : f.pc → g.pc := by intro h; exact h.elim
  sp : f.sp → g.sp := by intro h; exact h.elim
  stk : ∀ k, f.stk k → g.stk k := by intro k h; exact h.elim
  mem : ∀ a, f.mem a → g.mem a := by intro a h; exact h.elim
  disp : f.disp → g.disp := by intro h; exact h.elim
  dt : f.dt → g.dt := by intro h; exact h.elim
  st : f.st → g.st := by intro h; exact h.elim
  exec : f.exec → g.exec := by intro h; exact h.elim
  draws : f.draws → g.draws := by intro h; exact h.elim

theorem Footprint.Frames.mono {f g : Footprint} {s t : State} (a : f.Frames s t) (w : f.Within g) : g.Frames s t where
  v r h := a.v r (fun x => h (w.v r x))
  i h := a.i (fun x => h (w.i x))
  pc h := a.pc (fun x => h (w.pc x))
  sp h := a.sp (fun x => h (w.sp x))
  stk k h := a.stk k (fun x => h (w.stk k x))
  mem k h := a.mem k (fun x => h (w.mem k x))
  disp h := a.disp (fun x => h (w.disp x))
  dt h := a.dt (fun x => h (w.dt x))
  st h := a.st (fun x => h (w.st x))
  exec h := a.exec (fun x => h (w.exec x))
  draws h := a.draws (fun x => h (w.draws x))
  key := a.key
  run := a.run
  variant := a.variant
  dtAlive := a.dtAlive
  stAlive := a.stAlive
  reports := a.reports
  boot := a.boot
  params := a.params
  agenda := a.agenda

/-! ### Whole elements -/

/-- A state that differs in V alone, and there in the registers of `p` at most. -/
theorem frames_of_v (s : State) (v : Vector Byte 16) (p : RegIx → Prop)
    (h : ∀ r, ¬ p r → v[r.val] = s.readV r) : Footprint.Frames { v := p } s { s with v := v } where
  v r hr := h r hr
  i _ := rfl
  pc _ := rfl
  sp _ := rfl
  stk _ _ := rfl
  mem _ _ := rfl
  disp _ := rfl
  dt _ := rfl
  st _ := rfl
  exec _ := rfl
  draws _ := rfl
  key := rfl
  run := rfl
  variant := rfl
  dtAlive := rfl
  stAlive := rfl
  reports := rfl
  boot := rfl
  params := rfl
  agenda := rfl

theorem frames_setPc (s : State) (a : Word) : Footprint.Frames { pc := True } s (s.setPc a) := by
  constructor <;> intros <;> first | rfl | simp_all

theorem frames_setI (s : State) (a : Word) : Footprint.Frames { i := True } s (s.setI a) := by
  constructor <;> intros <;> first | rfl | simp_all

theorem frames_disp (s : State) (g : Grid) : Footprint.Frames { disp := True } s { s with disp := g } := by
  constructor <;> intros <;> first | rfl | simp_all

theorem frames_dt (s : State) (b : Byte) : Footprint.Frames { dt := True } s { s with dt := b } := by
  constructor <;> intros <;> first | rfl | simp_all

theorem frames_st (s : State) (b : Byte) : Footprint.Frames { st := True } s { s with st := b } := by
  constructor <;> intros <;> first | rfl | simp_all

theorem frames_exec (s : State) (e : ExecState) : Footprint.Frames { exec := True } s { s with exec := e } := by
  constructor <;> intros <;> first | rfl | simp_all

theorem frames_halt (s : State) (c : Cause) : Footprint.Frames { exec := True } s (s.halt c) :=
  frames_exec s (.halted c)

/-! ### Registers and flags -/

theorem frames_setV (s : State) (x : RegIx) (b : Byte) :
    Footprint.Frames { v := fun r => r = x } s (s.setV x b) :=
  frames_of_v s _ _ fun _ h => s.readV_setV_other b h

theorem frames_writeResultFlag (s : State) (x : RegIx) (b : Byte) (f : Bool) :
    Footprint.Frames { v := fun r => r = x ∨ r = vf } s (s.writeResultFlag x b f) := by
  rw [s.writeResultFlag_eq x b f]
  refine frames_of_v s _ _ fun r h => ?_
  obtain ⟨hx, hv⟩ := not_or.mp h
  exact (s.readV_writeResultFlag x r b f).trans (by rw [if_neg (fun e => hx e.1), if_neg hv])

theorem frames_writeLogic (s : State) (x : RegIx) (b : Byte) :
    Footprint.Frames { v := fun r => r = x ∨ (s.variant = .base ∧ r = vf) } s (s.writeLogic x b) := by
  by_cases hv : s.variant = .base
  · rw [s.writeLogic_base x b hv]
    exact (frames_writeResultFlag s x b false).mono { v := fun r h => h.imp_right (⟨hv, ·⟩) }
  · rw [s.writeLogic_extended x b hv]
    exact (frames_setV s x b).mono { v := fun r h => .inl h }

/-- One random draw into a register. -/
theorem frames_drawByte (s : State) (x : RegIx) (b : Byte) :
    Footprint.Frames { v := fun r => r = x, draws := True } s (s.drawByte.2.setV x b) := by
  have h : Footprint.Frames { v := fun r => r = x, draws := True } s s.drawByte.2 := by
    constructor <;> intros <;> first | rfl | simp_all
  exact h.trans ((frames_setV _ x b).mono { v := fun r h => h })

/-- A run of n bytes loaded into V[0] .. V[n - 1]. -/
theorem frames_writeRegisters (s : State) (bs : List Byte) :
    Footprint.Frames { v := fun r => r.val < bs.length } s { s with v := writeRegisters s.v 0 bs } := by
  refine frames_of_v s _ _ fun r h => ?_
  rw [getElem_writeRegisters, dif_neg (by simpa using h)]
  rfl

/-! ### PC and I -/

theorem frames_skipIf (s : State) (b : Bool) : Footprint.Frames { pc := b = true } s (s.skipIf b) := by
  cases b
  · exact .refl _ s
  · exact (frames_setPc s _).mono { pc := fun _ => rfl }

theorem frames_advanceIndex (s : State) (x : RegIx) :
    Footprint.Frames { i := s.variant = .base } s (s.advanceIndex x) := by
  unfold State.advanceIndex
  split
  · rename_i h
    exact (frames_setI s _).mono { i := fun _ => h }
  · exact .refl _ s
  · exact .refl _ s

/-! ### Stack -/

/-- Popping changes SP; the entry keeps its value. -/
theorem frames_sp (s : State) (n : Fin 17) : Footprint.Frames { sp := True } s { s with sp := n } := by
  constructor <;> intros <;> first | rfl | simp_all

/-- Pushing changes SP and the one cell STK[SP]. -/
theorem frames_push {s t : State} {a : Word} (h : s.push a = some t) :
    Footprint.Frames { sp := True, stk := fun k => k.val = s.sp.val } s t := by
  unfold State.push at h
  split at h
  · cases h
    constructor <;> intros <;> first | rfl | simp_all
    rename_i k hk
    exact Vector.getElem_set_ne _ _ (fun e => hk e.symm)
  · cases h

/-! ### Memory -/

theorem frames_writeBlock (s : State) (bs : List Byte) :
    Footprint.Frames { mem := s.dataBytes bs.length } s (s.writeBlock 0 bs) := by
  rw [s.writeBlock_eq bs 0]
  constructor <;> intros <;> first | rfl | skip
  rename_i a h
  exact s.read_writeBlock_other bs 0 a fun j hj e => h ⟨j, hj, by simpa using e⟩

end Sys2Proof.Machine
end

