-- ==== Sys2Proof/Laws/PerInstr.lean ====
section
/-! SUPPORT. The family RoundTrip, stated of the instruction as syntax: the decoder reads the canonical encoding of an
instruction as that instruction, at every value of its operands. -/

namespace Sys2Proof.Laws.RoundTrip

/-- Decoding the encoding gives the instruction back. -/
def Statement (i : Instr) : Prop := decodeWord (encode i) = .ok i

/-- It is enough that the k-th row of the opcode map matches the encoding and builds the instruction from it. -/
theorem of_row (i : Instr) (k : Nat) (hk : k < opcodeRows.length) (h : (opcodeRows[k]).hits (encode i) = true)
    (hb : (opcodeRows[k]).build (encode i) = i) : Statement i := by
  rw [Statement, decodeWord_of_hits (List.getElem_mem hk) h, hb]

theorem cls : Statement .cls := by
  exact of_row _ 0 (by decide) (by decide) (by decide)

theorem ret : Statement .ret := by
  exact of_row _ 1 (by decide) (by decide) (by decide)

theorem jp (nnn : Addr) : Statement (.jp nnn) := by
  refine of_row _ 2 (by decide) ((hits_family _ _ _).mpr ?_) ?_
  · rw [encode, toNat_packA]; have := nnn.isLt; simp; omega
  · simp [opcodeRows, opcodeRowsLow, opcodeRowsAlu, opcodeRowsMid, opcodeRowsHigh, encode]

theorem call (nnn : Addr) : Statement (.call nnn) := by
  refine of_row _ 3 (by decide) ((hits_family _ _ _).mpr ?_) ?_
  · rw [encode, toNat_packA]; have := nnn.isLt; simp; omega
  · simp [opcodeRows, opcodeRowsLow, opcodeRowsAlu, opcodeRowsMid, opcodeRowsHigh, encode]

theorem seImm (x : RegIx) (nn : Byte) : Statement (.seImm x nn) := by
  refine of_row _ 4 (by decide) ((hits_family _ _ _).mpr ?_) ?_
  · rw [encode, toNat_packXI]; have := nn.isLt; simp; omega
  · simp [opcodeRows, opcodeRowsLow, opcodeRowsAlu, opcodeRowsMid, opcodeRowsHigh, encode]

theorem sneImm (x : RegIx) (nn : Byte) : Statement (.sneImm x nn) := by
  refine of_row _ 5 (by decide) ((hits_family _ _ _).mpr ?_) ?_
  · rw [encode, toNat_packXI]; have := nn.isLt; simp; omega
  · simp [opcodeRows, opcodeRowsLow, opcodeRowsAlu, opcodeRowsMid, opcodeRowsHigh, encode]

theorem seReg (x : RegIx) (y : RegIx) : Statement (.seReg x y) := by
  refine of_row _ 6 (by decide) ((hits_family _ _ _).mpr ?_) ?_
  · rw [encode, toNat_packXY]; simp; omega
  · simp [opcodeRows, opcodeRowsLow, opcodeRowsAlu, opcodeRowsMid, opcodeRowsHigh, encode]

theorem ldImm (x : RegIx) (nn : Byte) : Statement (.ldImm x nn) := by
  refine of_row _ 7 (by decide) ((hits_family _ _ _).mpr ?_) ?_
  · rw [encode, toNat_packXI]; have := nn.isLt; simp; omega
  · simp [opcodeRows, opcodeRowsLow, opcodeRowsAlu, opcodeRowsMid, opcodeRowsHigh, encode]

theorem addImm (x : RegIx) (nn : Byte) : Statement (.addImm x nn) := by
  refine of_row _ 8 (by decide) ((hits_family _ _ _).mpr ?_) ?_
  · rw [encode, toNat_packXI]; have := nn.isLt; simp; omega
  · simp [opcodeRows, opcodeRowsLow, opcodeRowsAlu, opcodeRowsMid, opcodeRowsHigh, encode]

theorem ldReg (x : RegIx) (y : RegIx) : Statement (.ldReg x y) := by
  refine of_row _ 9 (by decide) ((hits_low _ _ _).mpr ?_) ?_
  · rw [encode, toNat_packXY]; simp; omega
  · simp [opcodeRows, opcodeRowsLow, opcodeRowsAlu, opcodeRowsMid, opcodeRowsHigh, encode]

theorem orReg (x : RegIx) (y : RegIx) : Statement (.orReg x y) := by
  refine of_row _ 10 (by decide) ((hits_low _ _ _).mpr ?_) ?_
  · rw [encode, toNat_packXY]; simp; omega
  · simp [opcodeRows, opcodeRowsLow, opcodeRowsAlu, opcodeRowsMid, opcodeRowsHigh, encode]

theorem andReg (x : RegIx) (y : RegIx) : Statement (.andReg x y) := by
  refine of_row _ 11 (by decide) ((hits_low _ _ _).mpr ?_) ?_
  · rw [encode, toNat_packXY]; simp; omega
  · simp [opcodeRows, opcodeRowsLow, opcodeRowsAlu, opcodeRowsMid, opcodeRowsHigh, encode]

theorem xorReg (x : RegIx) (y : RegIx) : Statement (.xorReg x y) := by
  refine of_row _ 12 (by decide) ((hits_low _ _ _).mpr ?_) ?_
  · rw [encode, toNat_packXY]; simp; omega
  · simp [opcodeRows, opcodeRowsLow, opcodeRowsAlu, opcodeRowsMid, opcodeRowsHigh, encode]

theorem addReg (x : RegIx) (y : RegIx) : Statement (.addReg x y) := by
  refine of_row _ 13 (by decide) ((hits_low _ _ _).mpr ?_) ?_
  · rw [encode, toNat_packXY]; simp; omega
  · simp [opcodeRows, opcodeRowsLow, opcodeRowsAlu, opcodeRowsMid, opcodeRowsHigh, encode]

theorem subReg (x : RegIx) (y : RegIx) : Statement (.subReg x y) := by
  refine of_row _ 14 (by decide) ((hits_low _ _ _).mpr ?_) ?_
  · rw [encode, toNat_packXY]; simp; omega
  · simp [opcodeRows, opcodeRowsLow, opcodeRowsAlu, opcodeRowsMid, opcodeRowsHigh, encode]

theorem shrReg (x : RegIx) (y : RegIx) : Statement (.shrReg x y) := by
  refine of_row _ 15 (by decide) ((hits_low _ _ _).mpr ?_) ?_
  · rw [encode, toNat_packXY]; simp; omega
  · simp [opcodeRows, opcodeRowsLow, opcodeRowsAlu, opcodeRowsMid, opcodeRowsHigh, encode]

theorem subnReg (x : RegIx) (y : RegIx) : Statement (.subnReg x y) := by
  refine of_row _ 16 (by decide) ((hits_low _ _ _).mpr ?_) ?_
  · rw [encode, toNat_packXY]; simp; omega
  · simp [opcodeRows, opcodeRowsLow, opcodeRowsAlu, opcodeRowsMid, opcodeRowsHigh, encode]

theorem shlReg (x : RegIx) (y : RegIx) : Statement (.shlReg x y) := by
  refine of_row _ 17 (by decide) ((hits_low _ _ _).mpr ?_) ?_
  · rw [encode, toNat_packXY]; simp; omega
  · simp [opcodeRows, opcodeRowsLow, opcodeRowsAlu, opcodeRowsMid, opcodeRowsHigh, encode]

theorem sneReg (x : RegIx) (y : RegIx) : Statement (.sneReg x y) := by
  refine of_row _ 18 (by decide) ((hits_family _ _ _).mpr ?_) ?_
  · rw [encode, toNat_packXY]; simp; omega
  · simp [opcodeRows, opcodeRowsLow, opcodeRowsAlu, opcodeRowsMid, opcodeRowsHigh, encode]

theorem ldI (nnn : Addr) : Statement (.ldI nnn) := by
  refine of_row _ 19 (by decide) ((hits_family _ _ _).mpr ?_) ?_
  · rw [encode, toNat_packA]; have := nnn.isLt; simp; omega
  · simp [opcodeRows, opcodeRowsLow, opcodeRowsAlu, opcodeRowsMid, opcodeRowsHigh, encode]

theorem jpV0 (nnn : Addr) : Statement (.jpV0 nnn) := by
  refine of_row _ 20 (by decide) ((hits_family _ _ _).mpr ?_) ?_
  · rw [encode, toNat_packA]; have := nnn.isLt; simp; omega
  · simp [opcodeRows, opcodeRowsLow, opcodeRowsAlu, opcodeRowsMid, opcodeRowsHigh, encode]

theorem rnd (x : RegIx) (nn : Byte) : Statement (.rnd x nn) := by
  refine of_row _ 21 (by decide) ((hits_family _ _ _).mpr ?_) ?_
  · rw [encode, toNat_packXI]; have := nn.isLt; simp; omega
  · simp [opcodeRows, opcodeRowsLow, opcodeRowsAlu, opcodeRowsMid, opcodeRowsHigh, encode]

theorem drw (x : RegIx) (y : RegIx) (n : Fin 16) : Statement (.drw x y n) := by
  refine of_row _ 22 (by decide) ((hits_family _ _ _).mpr ?_) ?_
  · rw [encode, toNat_packXY]; have := n.isLt; simp; omega
  · simp [opcodeRows, opcodeRowsLow, opcodeRowsAlu, opcodeRowsMid, opcodeRowsHigh, encode]

theorem skp (x : RegIx) : Statement (.skp x) := by
  refine of_row _ 23 (by decide) ((hits_byte _ _ _).mpr ?_) ?_
  · rw [encode, toNat_packXI]; simp; omega
  · simp [opcodeRows, opcodeRowsLow, opcodeRowsAlu, opcodeRowsMid, opcodeRowsHigh, encode]

theorem sknp (x : RegIx) : Statement (.sknp x) := by
  refine of_row _ 24 (by decide) ((hits_byte _ _ _).mpr ?_) ?_
  · rw [encode, toNat_packXI]; simp; omega
  · simp [opcodeRows, opcodeRowsLow, opcodeRowsAlu, opcodeRowsMid, opcodeRowsHigh, encode]

theorem ldVxDt (x : RegIx) : Statement (.ldVxDt x) := by
  refine of_row _ 25 (by decide) ((hits_byte _ _ _).mpr ?_) ?_
  · rw [encode, toNat_packXI]; simp; omega
  · simp [opcodeRows, opcodeRowsLow, opcodeRowsAlu, opcodeRowsMid, opcodeRowsHigh, encode]

theorem ldVxK (x : RegIx) : Statement (.ldVxK x) := by
  refine of_row _ 26 (by decide) ((hits_byte _ _ _).mpr ?_) ?_
  · rw [encode, toNat_packXI]; simp; omega
  · simp [opcodeRows, opcodeRowsLow, opcodeRowsAlu, opcodeRowsMid, opcodeRowsHigh, encode]

theorem ldDtVx (x : RegIx) : Statement (.ldDtVx x) := by
  refine of_row _ 27 (by decide) ((hits_byte _ _ _).mpr ?_) ?_
  · rw [encode, toNat_packXI]; simp; omega
  · simp [opcodeRows, opcodeRowsLow, opcodeRowsAlu, opcodeRowsMid, opcodeRowsHigh, encode]

theorem ldStVx (x : RegIx) : Statement (.ldStVx x) := by
  refine of_row _ 28 (by decide) ((hits_byte _ _ _).mpr ?_) ?_
  · rw [encode, toNat_packXI]; simp; omega
  · simp [opcodeRows, opcodeRowsLow, opcodeRowsAlu, opcodeRowsMid, opcodeRowsHigh, encode]

theorem addI (x : RegIx) : Statement (.addI x) := by
  refine of_row _ 29 (by decide) ((hits_byte _ _ _).mpr ?_) ?_
  · rw [encode, toNat_packXI]; simp; omega
  · simp [opcodeRows, opcodeRowsLow, opcodeRowsAlu, opcodeRowsMid, opcodeRowsHigh, encode]

theorem ldF (x : RegIx) : Statement (.ldF x) := by
  refine of_row _ 30 (by decide) ((hits_byte _ _ _).mpr ?_) ?_
  · rw [encode, toNat_packXI]; simp; omega
  · simp [opcodeRows, opcodeRowsLow, opcodeRowsAlu, opcodeRowsMid, opcodeRowsHigh, encode]

theorem ldB (x : RegIx) : Statement (.ldB x) := by
  refine of_row _ 31 (by decide) ((hits_byte _ _ _).mpr ?_) ?_
  · rw [encode, toNat_packXI]; simp; omega
  · simp [opcodeRows, opcodeRowsLow, opcodeRowsAlu, opcodeRowsMid, opcodeRowsHigh, encode]

theorem ldIndVx (x : RegIx) : Statement (.ldIndVx x) := by
  refine of_row _ 32 (by decide) ((hits_byte _ _ _).mpr ?_) ?_
  · rw [encode, toNat_packXI]; simp; omega
  · simp [opcodeRows, opcodeRowsLow, opcodeRowsAlu, opcodeRowsMid, opcodeRowsHigh, encode]

theorem ldVxInd (x : RegIx) : Statement (.ldVxInd x) := by
  refine of_row _ 33 (by decide) ((hits_byte _ _ _).mpr ?_) ?_
  · rw [encode, toNat_packXI]; simp; omega
  · simp [opcodeRows, opcodeRowsLow, opcodeRowsAlu, opcodeRowsMid, opcodeRowsHigh, encode]

end Sys2Proof.Laws.RoundTrip
end

