-- ==== Sys2Proof/Laws/Step.lean ====
section
/-! SUPPORT. What one step can do, said once: `step_cases` turns "step s answers next t" into the moves that can have been
made, with their guards. A proof about every step is a case analysis on it, and unfolds neither step nor a move. -/

namespace Sys2Proof.Machine

/-- The move the step from `s` to `t` was. In every case `s.popAgenda` is the state the move was made in: it differs from
`s` in the agenda alone. -/
inductive StepCase (s t : State) : Prop
  /-- The unit saw Stopped, between instructions or in a key-wait. -/
  | sawStopped (turn : s.nextMove = .execUnit) (live : ∀ c, s.exec ≠ .halted c) (run : s.run = .stopped)
      (eq : t = s.popAgenda.halt .stopped)
  /-- The unit idled: Paused or Starting, or a key-wait with no key pressed. -/
  | idle (turn : s.nextMove = .execUnit) (live : ∀ c, s.exec ≠ .halted c) (run : s.run ≠ .stopped)
      (eq : t = s.popAgenda)
  /-- The fetch was out of bounds. -/
  | blocked (turn : s.nextMove = .execUnit) (runnable : s.exec = .runnable) (run : s.run = .running)
      (blocked : s.fetchBlocked = true) (eq : t = s.popAgenda.halt .pcOutOfBounds)
  /-- An instruction ran. -/
  | instruction (i : Instr) (turn : s.nextMove = .execUnit) (runnable : s.exec = .runnable)
      (run : s.run = .running) (inside : s.fetchBlocked = false) (decoded : decodeFor s.params s.fetchWord = .ok i)
      (eq : exec i s.popAgenda.fetched = .next t)
  /-- An unknown opcode was reported. -/
  | unknown (e : DecodeError) (turn : s.nextMove = .execUnit) (runnable : s.exec = .runnable)
      (run : s.run = .running) (inside : s.fetchBlocked = false)
      (decoded : decodeFor s.params s.fetchWord = .error e)
      (eq : t = s.popAgenda.fetched.report s.fetchWord s.pc)
  /-- A key-wait took the key `k`, one of those pressed. -/
  | keyTaken (x : RegIx) (k : KeyIx) (turn : s.nextMove = .execUnit) (waiting : s.exec = .waitK x)
      (run : s.run ≠ .stopped) (down : s.keyDown k = true) (n : Nat)
      (eq : t = { s.popAgenda.setV x (BitVec.ofNat 8 k.val) with exec := .runnable, draws := n })
  /-- A tick of the delay timer. -/
  | delay (turn : s.nextMove = .tick .delay) (eq : t = delayTick s.popAgenda)
  /-- A tick of the sound timer. -/
  | sound (turn : s.nextMove = .tick .sound) (eq : t = soundTick s.popAgenda)
  /-- The host wrote a key. -/
  | key (k : KeyIx) (down : Bool) (turn : s.nextMove = .setKey k down) (eq : t = hostKey k down s.popAgenda)
  /-- The host wrote RUN. -/
  | setRun (r : RunStatus) (turn : s.nextMove = .setRun r) (latched : s.run = .stopped → r = .stopped)
      (booted : r = .running → s.bootDone = true)
      (eq : t = { s.popAgenda with run := r, boot := if r = .running then .started else s.boot })
  /-- The loader filled MEM. -/
  | load (image : List Byte) (turn : s.nextMove = .load image) (allowed : s.mayLoad = true)
      (fits : imageWf image = true)
      (eq : t = { s.popAgenda with mem := Memory.loaded s.params.glyphs image, boot := .loaded })
  /-- The loader set the strap. -/
  | strap (code : BitVec 2) (variant : Variant) (turn : s.nextMove = .strap code) (allowed : s.mayStrap = true)
      (named : variantOfCode code = some variant) (eq : t = { s.popAgenda with variant := variant, boot := .strapped })

@[simp] theorem State.haltCause_halt (s : State) (c : Cause) : (s.halt c).haltCause = c.code := rfl

/-! ### Where the boot stands (R192) -/

theorem State.bootDone_iff (s : State) : s.bootDone = true ↔ s.boot = .strapped ∨ s.boot = .started := by
  simp [State.bootDone]

theorem State.mayLoad_iff (s : State) :
    s.mayLoad = true ↔ (s.boot = .fresh ∨ s.boot = .loaded) ∧ s.run ≠ .stopped := by
  simp [State.mayLoad]

theorem State.mayStrap_iff (s : State) : s.mayStrap = true ↔ s.boot = .loaded ∧ s.run ≠ .stopped := by
  simp [State.mayStrap]

/-! ### One step -/

/-- The key picked is one of those pressed, and nothing but the draw counter changes. -/
theorem State.pickKey_spec (s : State) (k : KeyIx) (ks : List KeyIx) :
    (s.pickKey k ks).1 ∈ k :: ks ∧ ∃ n, (s.pickKey k ks).2 = { s with draws := n } := by
  unfold State.pickKey
  split
  · exact ⟨List.mem_cons_self, s.draws, rfl⟩
  · exact ⟨List.getElem_mem _, s.draws + 1, rfl⟩

theorem step_cases {s t : State} (h : step s = .next t) : StepCase s t := by
  unfold step makeMove at h
  split at h <;> rename_i turn
  · unfold execTurn at h
    split at h <;> rename_i e
    · cases h
    · cases h
      have live : ∀ c, s.exec ≠ .halted c := fun c hc => ExecState.noConfusion (hc.symm.trans e)
      unfold waitStep
      split <;> rename_i hr
      · exact .sawStopped turn live hr rfl
      all_goals
        have run : s.run ≠ .stopped := fun hs => RunStatus.noConfusion (hr.symm.trans hs)
        split <;> rename_i hk
        · exact .idle turn live run rfl
        · obtain ⟨hm, n, hn⟩ := State.pickKey_spec s.popAgenda ‹_› ‹_›
          rw [← hk] at hm
          exact .keyTaken _ _ turn e run (List.mem_filter.mp hm).2 n (by simp only [hn]; rfl)
    · have live : ∀ c, s.exec ≠ .halted c := fun c hc => ExecState.noConfusion (hc.symm.trans e)
      unfold execStep at h
      split at h <;> rename_i hr
      · cases h; exact .sawStopped turn live hr rfl
      · cases h; exact .idle turn live (fun hs => RunStatus.noConfusion (hr.symm.trans hs)) rfl
      · cases h; exact .idle turn live (fun hs => RunStatus.noConfusion (hr.symm.trans hs)) rfl
      · unfold runInstruction at h
        split at h <;> rename_i hb
        · cases h; exact .blocked turn e hr hb rfl
        · have hb : s.fetchBlocked = false := Bool.eq_false_of_not_eq_true hb
          split at h <;> rename_i hd
          · exact .instruction _ turn e hr hb hd h
          · cases h; exact .unknown _ turn e hr hb hd rfl
  · rename_i t
    cases h
    cases t
    · exact .delay turn rfl
    · exact .sound turn rfl
  · cases h; exact .key _ _ turn rfl
  · unfold hostRun at h
    split at h <;> rename_i hs
    · cases h
    · split at h <;> rename_i hb
      · cases h
      · cases h
        exact .setRun _ turn (fun e => by by_contra hn; exact hs ⟨e, hn⟩) (fun e => by by_contra hf; exact hb ⟨e, Bool.eq_false_of_not_eq_true hf⟩) rfl
  · unfold hostLoad at h
    split at h <;> rename_i hb
    · split at h <;> rename_i hi
      · cases h; exact .load _ turn hb hi rfl
      · cases h
    · cases h
  · unfold hostStrap at h
    split at h <;> rename_i hb
    · split at h <;> rename_i hv
      · cases h; exact .strap _ _ turn hb hv rfl
      · cases h
    · cases h

/-! ### Ticks in one equation each (R175) -/

theorem countDown_toNat (b : Byte) : (countDown b).toNat = b.toNat - 1 := by
  unfold countDown
  split
  · rename_i h; simp [h]
  · rename_i h
    have : b.toNat ≠ 0 := fun e => h (BitVec.eq_of_toNat_eq (by simpa using e))
    have := b.isLt
    simp [BitVec.toNat_sub]; omega

/-- What a tick of the delay timer does: it writes DT and DT_ALIVE and nothing else. -/
theorem delayTick_eq (s : State) : delayTick s =
    { s with
      dt := if s.dtAlive = true ∧ s.run = .running then countDown s.dt else s.dt
      dtAlive := if s.run = .stopped then false else s.dtAlive } := by
  obtain ⟨v, i, pc, sp, stk, mem, disp, key, dt, st, run, variant, exec, da, sa, _⟩ := s
  cases da <;> cases run <;> rfl

/-- What a tick of the sound timer does: it writes ST and ST_ALIVE and nothing else. -/
theorem soundTick_eq (s : State) : soundTick s =
    { s with
      st := if s.stAlive = true ∧ s.run = .running then countDown s.st else s.st
      stAlive := if s.run = .stopped then false else s.stAlive } := by
  obtain ⟨v, i, pc, sp, stk, mem, disp, key, dt, st, run, variant, exec, da, sa, _⟩ := s
  cases sa <;> cases run <;> rfl

/-! ### Runs of several steps -/

theorem run_succ_of_step {s u : State} (k : Nat) (h : step s = .next u) :
    Host.Core.run Sys2Proof.core (k + 1) s = Host.Core.run Sys2Proof.core k u := by
  have h' : Sys2Proof.core.step s = .next u := h
  simp only [Host.Core.run, h']

/-- A run of k + 1 steps that answers a state is one step and a run of k. -/
theorem run_succ_next {s t : State} {k : Nat} (h : Host.Core.run Sys2Proof.core (k + 1) s = .next t) :
    ∃ u, step s = .next u ∧ Host.Core.run Sys2Proof.core k u = .next t := by
  simp only [Host.Core.run] at h
  split at h
  · exact ⟨_, by assumption, h⟩
  · cases h
  · cases h

end Sys2Proof.Machine
end

