-- ==== Sys2Proof/Tests/Slice0.lean ====
section
/-! SUPPORT. The model's own tests: the well-formedness smoke, words written out from 30_encoding.md R64 and R66, single steps
whose results are those of 95_test_vectors.md (each test names its vector), and for every obligation with hypotheses a
concrete state that meets them. -/

namespace Sys2Proof.Tests

open Sys2Proof.Machine

/-! ### Well-formedness: each check has a term it refuses -/

/-- R111 with HAS_8XY0 = false. -/
theorem test_wf_refuses_8xy0 : Instr.wf { Params.default with has8xy0 := false } (.ldReg 1 2) = false := by decide

theorem test_wf_accepts_8xy0 : Instr.wf Params.default (.ldReg 1 2) = true := by decide

/-- R193: 3585 bytes are one too many, 3584 fit. -/
theorem test_wf_refuses_long_image : imageWf (List.replicate 3585 0) = false := by
  simp only [imageWf, List.length_replicate]
  decide

theorem test_wf_accepts_full_image : imageWf (List.replicate 3584 0) = true := by
  simp only [imageWf, List.length_replicate]
  decide

/-- R26: code 3 is reserved. -/
theorem test_wf_refuses_variant_code : variantCodeWf 3 = false ∧ variantCodeWf 2 = true := by decide

/-! ### Decoding, a word for every row of R66, bit by bit F, X, Y, N or F, X, NN or F, NNN -/

theorem test_decode_display :
    decodeWord 0b0000_0000_11100000 = .ok .cls ∧ decodeWord 0b1101_0001_0010_0101 = .ok (.drw 1 2 5) := by decide

theorem test_decode_control :
    decodeWord 0b0000_0000_11101110 = .ok .ret ∧ decodeWord 0b0001_101010111100 = .ok (.jp 0xABC) ∧
    decodeWord 0b0010_101010111101 = .ok (.call 0xABD) ∧ decodeWord 0b0011_0001_00101010 = .ok (.seImm 1 0x2A) ∧
    decodeWord 0b0100_1110_00101011 = .ok (.sneImm 14 0x2B) ∧ decodeWord 0b0101_0001_0010_0000 = .ok (.seReg 1 2) ∧
    decodeWord 0b1001_0011_0100_0000 = .ok (.sneReg 3 4) ∧ decodeWord 0b1011_001100000001 = .ok (.jpV0 0x301) := by
  decide

theorem test_decode_alu :
    decodeWord 0b0110_0001_11111111 = .ok (.ldImm 1 0xFF) ∧ decodeWord 0b0111_0010_00000011 = .ok (.addImm 2 3) ∧
    decodeWord 0b1000_0001_0010_0000 = .ok (.ldReg 1 2) ∧ decodeWord 0b1000_0001_0010_0001 = .ok (.orReg 1 2) ∧
    decodeWord 0b1000_0001_0010_0010 = .ok (.andReg 1 2) ∧ decodeWord 0b1000_0001_0010_0011 = .ok (.xorReg 1 2) ∧
    decodeWord 0b1000_0001_0010_0100 = .ok (.addReg 1 2) ∧ decodeWord 0b1000_0001_0010_0101 = .ok (.subReg 1 2) ∧
    decodeWord 0b1000_0001_0010_0110 = .ok (.shrReg 1 2) ∧ decodeWord 0b1000_0001_0010_0111 = .ok (.subnReg 1 2) ∧
    decodeWord 0b1000_0001_0010_1110 = .ok (.shlReg 1 2) := by
  decide

theorem test_decode_index :
    decodeWord 0b1010_001100000000 = .ok (.ldI 0x300) ∧ decodeWord 0b1100_0001_00001111 = .ok (.rnd 1 0x0F) ∧
    decodeWord 0b1111_0011_00011110 = .ok (.addI 3) ∧ decodeWord 0b1111_1010_00101001 = .ok (.ldF 10) := by
  decide

theorem test_decode_keys :
    decodeWord 0b1110_0101_10011110 = .ok (.skp 5) ∧ decodeWord 0b1110_0101_10100001 = .ok (.sknp 5) ∧
    decodeWord 0b1111_0101_00000111 = .ok (.ldVxDt 5) ∧ decodeWord 0b1111_0011_00001010 = .ok (.ldVxK 3) ∧
    decodeWord 0b1111_0111_00010101 = .ok (.ldDtVx 7) ∧ decodeWord 0b1111_1000_00011000 = .ok (.ldStVx 8) := by
  decide

theorem test_decode_transfer :
    decodeWord 0b1111_0010_00110011 = .ok (.ldB 2) ∧ decodeWord 0b1111_1111_01010101 = .ok (.ldIndVx 15) ∧
    decodeWord 0b1111_0010_01100101 = .ok (.ldVxInd 2) := by
  decide

/-- ENC-1 and ENC-2: the byte at the lower address is the high byte. -/
theorem test_decode_is_big_endian :
    decode [0x61, 0x2A] = .ok (.ldImm 1 0x2A, []) ∧ decode [0x2A, 0x61, 7] = .ok (.call 0xA61, [7]) ∧
    decode [0x61] = .error .truncated := by
  decide

/-- ENC-3 to ENC-5: words of no row. -/
theorem test_decode_unknown :
    decodeWord 0x0000 = .error (.unknownOpcode 0x0000) ∧ decodeWord 0x8128 = .error (.unknownOpcode 0x8128) ∧
    decodeWord 0xE19F = .error (.unknownOpcode 0xE19F) ∧ decodeWord 0xF100 = .error (.unknownOpcode 0xF100) ∧
    decodeWord 0x0123 = .error (.unknownOpcode 0x0123) := by
  decide

/-- ENC-6 and ENC-7: ignored bits, and STRICT_CANONICAL. -/
theorem test_decode_ignored_bits :
    decodeWord 0x03E0 = .ok .cls ∧ decodeWord 0x512F = .ok (.seReg 1 2) ∧
    decodeFor { Params.default with strictCanonical := true } 0x03E0 = .error (.unknownOpcode 0x03E0) ∧
    decodeFor { Params.default with strictCanonical := true } 0x512F = .error (.unknownOpcode 0x512F) ∧
    decodeFor { Params.default with strictCanonical := true } 0x5120 = .ok (.seReg 1 2) := by
  decide

/-- ALU-6: HAS_8XY0 = false. -/
theorem test_decode_without_8xy0 :
    decodeFor { Params.default with has8xy0 := false } 0x8120 = .error (.unknownOpcode 0x8120) ∧
    decodeFor Params.default 0x8120 = .ok (.ldReg 1 2) := by
  decide

theorem test_decode_table_word :
    decodeTableWord 16 0xD125 = some (.drw 1 2 5) ∧ decodeTableWord 16 0x8128 = none := by decide

/-! ### Single steps -/

/-- The reset state with some registers loaded. -/
def withV (l : List (RegIx × Byte)) : State := l.foldl (fun s p => s.setV p.1 p.2) State.reset

/-- The same state under the extended variants (they behave alike, R26). -/
def ext (s : State) : State := { s with variant := .extA }

/-- The state after the one instruction `w`, placed at PC. -/
def after (w : Nat) (s : State) : Option State :=
  match step (s.withFetchWord 16 w) with
  | .next t => some t
  | .fault _ => none
  | .refused _ => none

/-- The state after the next move of the agenda, whatever it is. -/
def afterMove (m : Move) (s : State) : Option State :=
  match step { s with agenda := [m] } with
  | .next t => some t
  | .fault _ => none
  | .refused _ => none

/-- A booted state: RUN reads Running. -/
def booted : State := { State.reset with run := .running, boot := .started }

/-- The state after the load of an empty image, VARIANT not fixed yet. -/
def memoryLoaded : State := { State.reset with mem := Memory.loaded Params.default.glyphs [], boot := .loaded }

/-- CTL-1. -/
theorem test_jp : (after 0x1ABC State.reset).map (·.pc) = some 0x0ABC := by decide

/-- CTL-4: the sixteenth call. -/
theorem test_call : (after 0x2300 { State.reset with sp := 15 }).map (fun t => (t.stk[15], t.sp, t.pc)) =
    some (0x0202, 16, 0x0300) := by decide

/-- CTL-5. -/
theorem test_call_full : (after 0x2300 { State.reset with sp := 16 }).map (fun t => (t.exec, t.sp, t.pc)) =
    some (.halted .stackOverflow, 16, 0x0202) := by decide

/-- CTL-6. -/
theorem test_ret : (after 0x00EE { State.reset with pc := 0x20C, sp := 1, stk := State.reset.stk.set 0 0x0206 }).map
    (fun t => (t.sp, t.pc, t.stk[0])) = some (0, 0x0206, 0x0206) := by decide

/-- CTL-7. -/
theorem test_ret_empty : (after 0x00EE State.reset).map (fun t => (t.exec, t.haltCause, t.pc)) =
    some (.halted .stackUnderflow, 4, 0x0202) := by decide

/-- CTL-8, CTL-9. -/
theorem test_se_imm : (after 0x312A (withV [(1, 0x2A)])).map (·.pc) = some 0x204 ∧
    (after 0x312A (withV [(1, 0x2B)])).map (·.pc) = some 0x202 := by decide

/-- CTL-10, CTL-11. -/
theorem test_sne_imm : (after 0x412A (withV [(1, 0x2A)])).map (·.pc) = some 0x202 ∧
    (after 0x412A (withV [(1, 0x2B)])).map (·.pc) = some 0x204 := by decide

/-- CTL-12, CTL-13. -/
theorem test_se_reg : (after 0x5120 (withV [(1, 9), (2, 9)])).map (·.pc) = some 0x204 ∧
    (after 0x5120 (withV [(1, 9), (2, 8)])).map (·.pc) = some 0x202 := by decide

/-- CTL-15, CTL-16. -/
theorem test_sne_reg : (after 0x9120 (withV [(1, 9), (2, 8)])).map (·.pc) = some 0x204 ∧
    (after 0x9330 (withV [(3, 7)])).map (·.pc) = some 0x202 := by decide

/-- CTL-18, CTL-19. -/
theorem test_jp_v0 : (after 0xBFFF (withV [(0, 0xFF)])).map (·.pc) = some 0x10FE ∧
    (after 0xB300 (ext (withV [(0, 0x01), (3, 0x50)]))).map (·.pc) = some 0x0301 := by decide

/-- ALU-2. -/
theorem test_ld_imm : (after 0x6F07 State.reset).map (·.readV vf) = some 7 := by decide

/-- ALU-4: no carry flag. -/
theorem test_add_imm : (after 0x71FF (withV [(1, 5), (vf, 1)])).map (fun t => (t.readV 1, t.readV vf)) =
    some (4, 1) := by decide

/-- ALU-6. -/
theorem test_ld_reg : (after 0x8120 (withV [(1, 0x11), (2, 0x2A), (vf, 1)])).map (fun t => (t.readV 1, t.readV vf)) =
    some (0x2A, 1) := by decide

/-- ALU-7, ALU-8. -/
theorem test_or : (after 0x8121 (withV [(1, 0xF0), (2, 0x0F), (vf, 1)])).map (fun t => (t.readV 1, t.readV vf)) =
      some (0xFF, 0) ∧
    (after 0x8121 (ext (withV [(1, 0xF0), (2, 0x0F), (vf, 1)]))).map (fun t => (t.readV 1, t.readV vf)) =
      some (0xFF, 1) := by decide

/-- ALU-13, ALU-14: X = 15. -/
theorem test_or_into_vf : (after 0x8F11 (withV [(1, 2), (vf, 1)])).map (·.readV vf) = some 0 ∧
    (after 0x8F11 (ext (withV [(1, 2), (vf, 1)]))).map (·.readV vf) = some 3 := by decide

/-- ALU-9. -/
theorem test_and : (after 0x8122 (withV [(1, 0xF0), (2, 0x3C), (vf, 1)])).map (fun t => (t.readV 1, t.readV vf)) =
    some (0x30, 0) := by decide

/-- ALU-15: the old VF is the operand. -/
theorem test_xor : (after 0x81F3 (withV [(1, 0x0F), (vf, 1)])).map (fun t => (t.readV 1, t.readV vf)) =
    some (0x0E, 0) := by decide

/-- ALU-16, the source's S1. -/
theorem test_add : (after 0x8124 (withV [(1, 0xFF), (2, 0x01)])).map (fun t => (t.readV 1, t.readV vf)) =
    some (0x00, 1) := by decide

/-- ALU-21: flag last by default; with FLAG_WRITE_ORDER = result last the sum 0x10 stays (R100). -/
theorem test_add_into_vf : (after 0x8F14 (withV [(1, 0x20), (vf, 0xF0)])).map (·.readV vf) = some 1 ∧
    (after 0x8F14 { withV [(1, 0x20), (vf, 0xF0)] with
      params := { Params.default with flagOrder := .resultLast } }).map (·.readV vf) = some 0x10 := by decide

/-- ALU-23 (the source's S2), ALU-25. -/
theorem test_sub : (after 0x8125 (withV [(1, 0x05), (2, 0x0A), (vf, 1)])).map (fun t => (t.readV 1, t.readV vf)) =
      some (0xFB, 0) ∧
    (after 0x8125 (withV [(1, 7), (2, 7)])).map (fun t => (t.readV 1, t.readV vf)) = some (0, 1) := by decide

/-- ALU-31, ALU-32. -/
theorem test_shr : (after 0x8126 (withV [(1, 0x03), (2, 0x10), (vf, 1)])).map (fun t => (t.readV 1, t.readV vf)) =
      some (0x08, 0) ∧
    (after 0x8126 (ext (withV [(1, 0x03), (2, 0x10)]))).map (fun t => (t.readV 1, t.readV vf)) = some (0x01, 1) := by
  decide

/-- ALU-29. -/
theorem test_subn : (after 0x8127 (withV [(1, 0x0A), (2, 0x05), (vf, 1)])).map (fun t => (t.readV 1, t.readV vf)) =
    some (0xFB, 0) := by decide

/-- ALU-36 (the source's S3), ALU-38. -/
theorem test_shl : (after 0x811E (withV [(1, 0x81)])).map (fun t => (t.readV 1, t.readV vf)) = some (0x02, 1) ∧
    (after 0x812E (ext (withV [(1, 0x81), (2, 0x40)]))).map (fun t => (t.readV 1, t.readV vf)) = some (0x02, 1) := by
  decide

/-- IDX-1. -/
theorem test_ld_i : (after 0xA300 { State.reset with i := 0xFFFF }).map (·.i) = some 0x0300 := by decide

/-- IDX-3, IDX-4: no mask, no flag. -/
theorem test_add_i : (after 0xF31E { withV [(3, 5)] with i := 0x0FFE }).map (fun t => (t.i, t.readV vf)) =
      some (0x1003, 0) ∧
    (after 0xF31E { withV [(3, 1)] with i := 0xFFFF }).map (fun t => (t.i, t.readV vf)) = some (0, 0) := by decide

/-- IDX-7, IDX-8. -/
theorem test_ld_f : (after 0xF029 (withV [(0, 0x1A)])).map (·.i) = some 0x0032 ∧
    (after 0xF029 (ext (withV [(0, 0x1A)]))).map (·.i) = some 0x0082 := by decide

/-- IDX-12: any draw AND 0 (the byte itself is free). -/
theorem test_rnd : ∃ t, exec (.rnd 1 0x00) (withV [(1, 0xFF)]) = .next t ∧ t.readV 1 = 0 ∧ t.draws = 1 :=
  ⟨_, rfl, by simp, by decide⟩

/-- DSP-11. -/
theorem test_cls : (after 0x00E0 { withV [(vf, 1)] with disp := Grid.blank.setCell 3 4 true }).map
    (fun t => (decide (t.disp = Grid.blank), t.readV vf)) = some (true, 1) := by decide

/-- DSP-2: coordinates wrap. -/
theorem test_drw_wraps : (after 0xD011 { withV [(0, 254), (1, 65)] with i := 0x300, mem := [(0x300, 0xC1)] }).map
    (fun t => (t.disp.cell 1 62, t.disp.cell 1 63, t.disp.cell 1 5, t.disp.cell 1 0, t.readV vf)) =
      some (true, true, true, false, 0) := by decide

/-- DSP-3: a collision. -/
theorem test_drw_collides : (after 0xD011 { State.reset with
      i := 0x300, mem := [(0x300, 0xA0)], disp := (Grid.blank.setCell 0 0 true).setCell 0 1 true }).map
    (fun t => (t.disp.cell 0 0, t.disp.cell 0 1, t.disp.cell 0 2, t.readV vf)) = some (false, true, true, 1) := by
  decide

/-- KEY-3, KEY-2: the low four bits of V0 number the key. -/
theorem test_skp : (after 0xE09E { withV [(0, 0x1A)] with key := State.reset.key.set 10 true }).map (·.pc) = some 0x204 ∧
    (after 0xE09E (withV [(0, 0x05)])).map (·.pc) = some 0x202 := by decide

/-- KEY-4, KEY-5. -/
theorem test_sknp : (after 0xE0A1 (withV [(0, 0x05)])).map (·.pc) = some 0x204 ∧
    (after 0xE0A1 { withV [(0, 0x05)] with key := State.reset.key.set 5 true }).map (·.pc) = some 0x202 := by decide

/-- TMR-1. -/
theorem test_ld_vx_dt : (after 0xF507 { State.reset with dt := 0x2A }).map (·.readV 5) = some 0x2A := by decide

/-- KEY-6, the issue. -/
theorem test_ld_vx_k : (after 0xF30A State.reset).map (fun t => (t.exec, t.pc)) = some (.waitK 3, 0x202) := by decide

/-- KEY-6, the sample that ends the wait. -/
theorem test_wait_takes_lowest : (afterMove .execUnit { booted with
      exec := .waitK 3, key := (State.reset.key.set 7 true).set 5 true }).map (fun t => (t.readV 3, t.exec)) =
    some (5, .runnable) := by decide

/-- TMR-2. -/
theorem test_ld_dt_vx : (after 0xF015 (withV [(0, 0x3C)])).map (fun t => (t.dt, t.st)) = some (0x3C, 0) := by decide

/-- TMR-2. -/
theorem test_ld_st_vx : (after 0xF018 (withV [(0, 0x3C)])).map (fun t => (t.dt, t.st)) = some (0, 0x3C) := by decide

/-- MEM-1 (the source's S7). -/
theorem test_ld_b : (after 0xF033 { withV [(0, 156)] with i := 0x300 }).map (fun t => (t.readBlock 3, t.i)) =
    some ([1, 5, 6], 0x300) := by decide

/-- MEM-4: nothing is stored. -/
theorem test_ld_b_beyond : (after 0xF033 { withV [(0, 123)] with i := 0x0FFE }).map
    (fun t => (t.exec, t.mem.read 0xFFE, t.mem.read 0xFFF)) = some (.halted .memOutOfBounds, 0, 0) := by decide

/-- MEM-5 (the source's S6). -/
theorem test_ld_ind_vx : (after 0xF355 { withV [(0, 0x11), (1, 0x22), (2, 0x33), (3, 0x44), (4, 0x55)] with
      i := 0x300 }).map (fun t => ([0x300, 0x301, 0x302, 0x303, 0x304].map t.mem.read, t.i)) =
    some ([0x11, 0x22, 0x33, 0x44, 0], 0x304) := by decide

/-- MEM-9, and MEM-9 in the extended variants. -/
theorem test_ld_vx_ind : (after 0xF265 { withV [(3, 0x77)] with
        i := 0x300, mem := [(0x300, 1), (0x301, 5), (0x302, 6), (0x303, 9)] }).map
      (fun t => ([0, 1, 2, 3].map t.readV, t.i)) = some ([1, 5, 6, 0x77], 0x303) ∧
    (after 0xF265 { ext (withV []) with i := 0x300, mem := [(0x300, 1)] }).map (·.i) = some 0x300 := by decide

/-- ENC-3. -/
theorem test_unknown : (after 0x0000 State.reset).map (fun t => (t.reports, t.pc, t.exec)) =
    some ([⟨0x0000, 0x200⟩], 0x202, .runnable) := by decide

/-- FLT-1 to FLT-4: the codes on HALT_CAUSE (R160). -/
theorem test_halt_causes : [Cause.stopped, .pcOutOfBounds, .stackOverflow, .stackUnderflow, .memOutOfBounds].map
    (fun c => ({ booted with exec := .halted c } : State).haltCause) = [1, 2, 3, 4, 5] := by decide

/-- ENC-9, ENC-10: the last fetchable address and the first that is not. -/
theorem test_pc_bound : (after 0x6001 { State.reset with pc := 0x0FFE }).map (fun t => (t.readV 0, t.pc)) =
      some (1, 0x1000) ∧
    (afterMove .execUnit { booted with pc := 0x0FFF }).map (fun t => (t.exec, t.pc)) =
      some (.halted .pcOutOfBounds, 0x0FFF) := by decide

/-- ENC-15: Stopped is seen before the PC bound. -/
theorem test_stopped_first : (afterMove .execUnit { booted with pc := 0x1000, run := .stopped }).map (·.exec) =
    some (.halted .stopped) := by decide

/-- TMR-3, TMR-5. -/
theorem test_tick : (afterMove (.tick .delay) { booted with dt := 3 }).map (·.dt) = some 2 ∧
    (afterMove (.tick .delay) booted).map (·.dt) = some 0 ∧
    (afterMove (.tick .delay) { booted with run := .stopped, dt := 3 }).map (fun t => (t.dt, t.dtAlive)) =
      some (3, false) := by decide

/-! ### Witnesses: for each obligation with hypotheses, a state and operands that meet them all -/

theorem witness_DecodingAnEncodingGivesTheInstruction :
    Instr.wf Params.default (.drw 15 0 15) = true ∧
    Instr.wf { Params.default with has8xy0 := false } (.ldReg 15 0) = false := by decide

theorem witness_EncodingADecodedWordGivesItsCanonicalForm :
    decodeWord 0xFF65 = .ok (.ldVxInd 15) ∧ encode (.ldVxInd 15) = 0xFF65 ∧
    decodeWord 0x0FE0 = .ok .cls ∧ encode .cls = 0x0FE0#16 &&& 0xF0FF#16 ∧
    decodeWord 0x9F0F = .ok (.sneReg 15 0) ∧ encode (.sneReg 15 0) = 0x9F0F#16 &&& 0xFFF0#16 := by decide

theorem witness_StepRunsTheFetchedInstruction :
    (State.reset.withFetchWord 16 0x612A).Fetches ∧ (State.reset.withFetchWord 16 0x612A).WordAtPc 0x612A ∧
    decodeFor (State.reset.withFetchWord 16 0x612A).params 0x612A = .ok (.ldImm 1 0x2A) :=
  ⟨⟨by decide, by decide, by decide, by decide, by decide⟩, by unfold State.WordAtPc; decide, by decide⟩

/-- The same at the last fetchable address. -/
theorem witness_Fetches_at_0xFFE :
    ({ booted with pc := 0x0FFE, mem := [(0xFFE, 0x60), (0xFFF, 0x01)] } : State).Fetches ∧
    ({ booted with pc := 0x0FFE, mem := [(0xFFE, 0x60), (0xFFF, 0x01)] } : State).WordAtPc 0x6001 :=
  ⟨⟨by decide, by decide, by decide, by decide, by decide⟩, by unfold State.WordAtPc; decide⟩

theorem witness_UnknownOpcodeIsAReportedNoOperation :
    booted.Fetches ∧ booted.WordAtPc 0x0000 ∧
    decodeFor booted.params 0x0000 = .error (.unknownOpcode 0x0000) :=
  ⟨⟨by decide, by decide, by decide, by decide, by decide⟩, by unfold State.WordAtPc; decide, by decide⟩

theorem witness_StoppedHaltsAtTheNextStep :
    let s : State := { booted with run := .stopped }
    s.nextMove = .execUnit ∧ s.run = .stopped ∧ s.exec = .runnable ∧
    ({ s with exec := .waitK 3 } : State).exec = .waitK 3 := by decide

/-- CTL-20's place for a skip, 0x0FFC, and the last fetchable one; V1 = 0 so that `3100` skips and `4100` does not. -/
theorem witness_SkipLaw :
    ({ booted with pc := 0x0FFC } : State).fetchBlocked = false ∧ decodeFor booted.params 0x3100 = .ok (.seImm 1 0) ∧
    booted.skipCondition (.seImm 1 0) = some true ∧ booted.skipCondition (.sneImm 1 0) = some false ∧
    booted.skipCondition (.sknp 1) = some true ∧
    (after 0x3100 { booted with pc := 0x0FFC }).map (·.pc) = some 0x1000 ∧
    (after 0x3100 { booted with pc := 0x0FFE }).map (·.pc) = some 0x1002 ∧
    (after 0x4100 { booted with pc := 0x0FFE }).map (·.pc) = some 0x1000 := by decide

theorem witness_RunStatusComesBeforeThePcBound :
    ({ booted with run := .stopped, pc := 0x0FFF } : State).nextMove = .execUnit ∧
    ({ booted with run := .paused } : State).exec = .runnable ∧ State.reset.run = .starting ∧
    (0x0FFF : Word).toNat > 0x0FFE ∧ booted.run = .running ∧
    (let s : State := { booted with pc := 0x0201, params := { Params.default with pcAlignCheck := true } }
     s.params.pcAlignCheck = true ∧ s.pc.toNat % 2 = 1 ∧
     (afterMove .execUnit s).map (·.exec) = some (.halted .pcOutOfBounds)) := by decide

/-- A unit that CALL halted. -/
def overflowed : State := { booted with exec := .halted .stackOverflow, dt := 2, st := 1 }

theorem witness_HaltedUnitTakesNoStep :
    overflowed.nextMove = .execUnit ∧ overflowed.exec = .halted .stackOverflow := by decide

theorem witness_HaltFreezesTheExecutionState :
    overflowed.boot = .started ∧
    (afterMove (.setKey 3 true) overflowed).map (·.exec) = some (.halted .stackOverflow) ∧
    (afterMove (.setRun .stopped) { State.reset with run := .stopped, exec := .halted .stopped }).map (·.run) =
      some .stopped := by decide

theorem witness_TimersRunOnAfterAHalt :
    overflowed.run = .running ∧ overflowed.dtAlive = true ∧ overflowed.stAlive = true ∧
    ({ overflowed with agenda := [.tick .delay] } : State).nextMove = .tick .delay ∧
    ({ overflowed with agenda := [.tick .sound] } : State).nextMove = .tick .sound := by decide

/-- A run of two moves from a state whose RUN is Stopped. -/
theorem witness_StoppedIsTerminal :
    ∃ t : State, Host.Core.run Sys2Proof.core 2
      { booted with run := .stopped, dt := 3, agenda := [.tick .delay, .execUnit] } = .next t :=
  ⟨_, rfl⟩

theorem witness_OnlyTheHostWritesItsInputs :
    (afterMove (.setRun .paused) booted).map (·.run) = some .paused ∧
    (afterMove (.setKey 15 true) booted).map (fun t => decide (t.key = booted.key)) = some false ∧
    (afterMove (.strap 2) memoryLoaded).map (·.variant) = some .extB := by decide

theorem witness_MemoryAndVariantAfterStart :
    (after 0xF033 { booted with i := 0x300, v := booted.v.set 0 156 }).map (fun t => (t.boot, t.mem.read 0x300)) =
      some (.started, 1) := by decide

theorem witness_DisplayChangesOnlyByClsAndDrw :
    (after 0x00E0 { booted with disp := Grid.blank.setCell 0 0 true }).map (·.disp.cell 0 0) = some false := by decide

theorem witness_TimersChangeOnlyByTheirTicksAndLoads :
    (afterMove (.tick .delay) overflowed).map (·.dt) = some 1 ∧
    (afterMove (.tick .sound) overflowed).map (·.st) = some 0 := by decide

theorem witness_TimerTick :
    ({ booted with agenda := [.tick .delay] } : State).nextMove = .tick .delay ∧
    ({ booted with agenda := [.tick .sound] } : State).nextMove = .tick .sound := by decide

theorem witness_DecrementersDieForGood :
    (afterMove (.tick .sound) { booted with run := .stopped, st := 3 }).map (fun t => (t.stAlive, t.st)) =
      some (false, 3) ∧
    (afterMove (.tick .delay) { booted with dtAlive := false, dt := 3 }).map (fun t => (t.dtAlive, t.dt)) =
      some (false, 3) := by decide

theorem witness_TimerCountsDownToZero :
    let s : State := { booted with dt := 3, agenda := List.replicate 4 (.tick .delay) }
    s.dtAlive = true ∧ s.agenda = List.replicate 4 (.tick .delay) ++ [] ∧ s.run = .running ∧
    ({ s with run := .paused } : State).run = .paused := by decide

theorem witness_KeyWaitSample :
    let s : State := { booted with exec := .waitK 3 }
    let t : State := { s with key := s.key.set 5 true, run := .paused }
    s.nextMove = .execUnit ∧ s.exec = .waitK 3 ∧ s.run ≠ .stopped ∧ (∀ k : KeyIx, s.key[k.val] = false) ∧
    t.key[5] = true ∧ (∀ j : KeyIx, j < 5 → t.key[j.val] = false) ∧ t.params.keyPick = .lowest ∧
    ({ t with params := { Params.default with keyPick := .anyPressed } } : State).params.keyPick = .anyPressed := by
  decide

theorem witness_HostWritesKeysAndRunStatus :
    (afterMove (.setKey 0 true) booted).map (·.key[0]) = some true ∧
    afterMove (.setRun .running) { booted with run := .stopped } = none ∧
    afterMove (.setRun .running) State.reset = none ∧
    afterMove (.setRun .running) { State.reset with boot := .loaded } = none ∧
    (afterMove (.setRun .running) { State.reset with boot := .strapped }).map (·.boot) = some .started ∧
    (afterMove (.setRun .stopped) { booted with run := .stopped }).map (·.run) = some .stopped := by decide

theorem witness_FaultingInstructionsWriteNothing :
    (after 0x00EE booted).map (·.exec) = some (.halted .stackUnderflow) ∧
    (after 0x2300 { booted with sp := 16 }).map (·.exec) = some (.halted .stackOverflow) ∧
    (after 0xD012 { booted with i := 0x0FFF }).map (·.exec) = some (.halted .memOutOfBounds) ∧
    (after 0xF033 { booted with i := 0x0FFE }).map (·.exec) = some (.halted .memOutOfBounds) ∧
    (after 0xFF65 { booted with i := 0x0FF1 }).map (·.exec) = some (.halted .memOutOfBounds) := by decide

/-- One byte too far, for each length. -/
theorem witness_DataAccessBeyondMemoryHalts :
    ¬ ({ booted with i := 0x0FFF } : State).InMemory 2 ∧ ¬ ({ booted with i := 0x0FFE } : State).InMemory 3 ∧
    ¬ ({ booted with i := 0x0FF1 } : State).InMemory 16 := by
  refine ⟨?_, ?_, ?_⟩ <;> unfold State.InMemory <;> decide

/-- The last byte of MEM, no byte at all, and the policy wrap12. -/
theorem witness_InMemory :
    ({ booted with i := 0x0FFF } : State).InMemory 1 ∧ ({ booted with i := 0x0FFD } : State).InMemory 3 ∧
    ({ booted with i := 0x0FF0 } : State).InMemory 16 ∧ ({ booted with i := 0xFFFF } : State).InMemory 0 ∧
    ({ booted with i := 0xFFFF, params := { Params.default with dataOob := .wrap12 } } : State).InMemory 16 := by
  refine ⟨?_, ?_, ?_, ?_, ?_⟩ <;> unfold State.InMemory <;> decide

theorem witness_DataAddressesAreIPlusOffset :
    ({ booted with i := 0x0FFD } : State).dataAddr 2 = 0x0FFF ∧
    ({ booted with i := 0x0FFF, params := { Params.default with dataOob := .wrap12 } } : State).dataAddr 1 = 0 := by
  decide

theorem witness_VariantsDifferOnlyAtEightInstructions :
    (after 0x8126 (ext (withV [(2, 3)]))).map (·.readV 1) = some 0 ∧
    (Variant.extA ≠ .base ∧ Variant.extB ≠ .base) := by decide

theorem witness_StepKeepsMemoryCanonical :
    ({ booted with mem := [(0x000, 0xF0), (0xFFF, 1)] } : State).mem.wf ∧
    (after 0xF055 { booted with mem := [(0x000, 0xF0), (0xFFF, 1)], i := 0xFFF }).map (fun t => decide t.mem.wf) =
      some true := by decide

/-- PC and a return address at their bounds; the full stack. -/
def atBounds : State := { booted with pc := 0x10FE, sp := 16, stk := booted.stk.set 15 0x1000 }

theorem witness_StepKeepsAddressesInRange :
    atBounds.AddressesInRange ∧ (afterMove .execUnit atBounds).map (·.exec) = some (.halted .pcOutOfBounds) :=
  ⟨⟨by decide, by decide, by decide⟩, by decide⟩

/-- Everything dead. -/
def latched : State :=
  { booted with run := .stopped, dtAlive := false, stAlive := false, exec := .halted .stopped }

theorem witness_StepKeepsStopLatched :
    latched.StopLatched ∧ (afterMove (.tick .delay) latched).map (·.dtAlive) = some false :=
  ⟨⟨by decide, by decide, by decide, by decide, fun _ _ => .inr rfl⟩, by decide⟩

theorem witness_BootLoadsGlyphsAndImage : (List.replicate 3584 (7 : Byte)).length ≤ 3584 := by
  rw [List.length_replicate]

theorem witness_LoaderIsCheckedBeforeStart :
    State.reset.boot = .fresh ∧ State.reset.run ≠ .stopped ∧ memoryLoaded.boot = .loaded ∧
    (afterMove (.load [0x22, 0x00]) State.reset).map (fun t => (t.boot, t.mem.read 0x200, t.mem.read 0x04B)) =
      some (.loaded, 0x22, 0xF0) ∧
    (afterMove (.strap 2) memoryLoaded).map (fun t => (t.variant, t.boot)) = some (.extB, .strapped) ∧
    afterMove (.strap 3) memoryLoaded = none ∧ afterMove (.strap 2) State.reset = none ∧
    afterMove (.strap 2) { memoryLoaded with boot := .strapped } = none ∧
    afterMove (.load []) { memoryLoaded with boot := .strapped } = none ∧
    afterMove (.load []) booted = none ∧ afterMove (.strap 0) booted = none ∧
    (List.replicate 3584 (0 : Byte)).length ≤ 3584 ∧ 3584 < (List.replicate 3585 (0 : Byte)).length := by
  simp only [List.length_replicate]
  decide

/-- MEM-12: a store of V0, V1 at 0x204 that is fetched from there. -/
theorem witness_StoredBytesAreFetched :
    let s : State := { withV [(0, 0x60), (1, 0x07)] with i := 0x204 }
    s.mem.wf ∧ s.InMemory 2 ∧ ((1 : RegIx).val = (0 : RegIx).val + 1) ∧ (1 : RegIx) ≤ 1 ∧
    s.dataAddr 1 = s.dataAddr 0 + 1 := by
  refine ⟨by decide, by unfold State.InMemory; decide, by decide, by decide, by decide⟩

/-- CALL with room for exactly one more, and none, under both readings of STACK_USABLE. -/
theorem witness_CallPushesTheAdvancedPc :
    ({ booted with sp := 15 } : State).sp.val < booted.params.stackUsable.entries ∧
    booted.params.stackUsable.entries ≤ ({ booted with sp := 16 } : State).sp.val ∧
    14 < StackUsable.fifteen.entries ∧ StackUsable.fifteen.entries ≤ 15 := by decide

theorem witness_ReturnPopsTheTopEntry :
    ({ booted with sp := 16 } : State).sp.val = (15 : Fin 16).val + 1 ∧
    ({ booted with sp := 1 } : State).sp.val = (0 : Fin 16).val + 1 ∧ booted.sp.val = 0 := by decide

theorem witness_KeySkips : (10 : KeyIx).val = ((withV [(0, 0x1A)]).readV 0).toNat % 16 := by decide

/-- A draw at the last byte of MEM, with a set cell under a set bit, and one with none. -/
theorem witness_DrawXorsTheSpriteAndReportsCollisions :
    let s : State := { booted with i := 0x0FFF, mem := [(0xFFF, 0x80)], disp := Grid.blank.setCell 0 0 true }
    s.InMemory 1 ∧ s.disp.cell (spriteRow (s.readV 1) 0) (spriteColumn (s.readV 0) 0) = true ∧
    s.spriteBit 0 0 = true ∧ s.spriteBit 0 1 = false := by
  refine ⟨by unfold State.InMemory; decide, by decide, by decide, by decide⟩

/-- DSP-6 in small: two draws of one sprite, coordinates in V0 and V1, which VF does not touch. -/
theorem witness_DoubleDrawRestoresTheDisplay :
    let s : State := { booted with i := 0x0FFF, mem := [(0xFFF, 0xC0)] }
    s.InMemory 1 ∧ ∃ t u : State, exec (.drw 0 1 1) s = .next t ∧ t.readV 0 = s.readV 0 ∧ t.readV 1 = s.readV 1 ∧
      exec (.drw 0 1 1) t = .next u :=
  ⟨by unfold State.InMemory; decide, _, _, rfl, by decide, by decide, rfl⟩

theorem witness_DrawChangesAsManyCellsAsBits :
    let s : State := { booted with i := 0x0FFF, mem := [(0xFFF, 0xC0)] }
    s.InMemory 1 ∧ ∃ t : State, exec (.drw 0 1 1) s = .next t ∧
      onesOf (s.mem.read (s.dataAddr 0)) = 2 :=
  ⟨by unfold State.InMemory; decide, _, rfl, by decide⟩

theorem witness_BcdStoresThreeDigits :
    let s : State := { booted with i := 0x0FFD }
    s.mem.wf ∧ s.InMemory 3 := by
  refine ⟨by decide, by unfold State.InMemory; decide⟩

theorem witness_BulkStoreWritesTheRegisters :
    let s : State := { booted with i := 0x0FF0 }
    s.mem.wf ∧ s.InMemory ((15 : RegIx).val + 1) ∧ (15 : RegIx) ≤ 15 ∧ s.variant = .base ∧ (ext s).variant ≠ .base := by
  refine ⟨by decide, by unfold State.InMemory; decide, by decide, by decide, by decide⟩

theorem witness_BulkLoadReadsTheRegisters :
    let s : State := { booted with i := 0x0FF0 }
    s.InMemory ((15 : RegIx).val + 1) ∧ s.variant = .base ∧ (ext s).variant ≠ .base := by
  refine ⟨by unfold State.InMemory; decide, by decide, by decide⟩

end Sys2Proof.Tests
end

section
/-! SUPPORT. The statements of 00_scope.md, and what they rest on: the frame of every instruction (`exec_frames`), who
writes the host's inputs (`step_inputs`), what the host's writes of KEY and RUN answer, and what an instruction does
under another VARIANT. -/

namespace Sys2Proof.Machine

/-! ### What an instruction leaves alone -/

/-- An access behind CheckData keeps to a footprint that holds EXEC where the check fails, and all the access writes
where it does not (R46). -/
theorem frames_withData {f : Footprint} (s : State) (n : Nat) (access : State → State)
    (fails : s.dataFaults n = true → f.exec) (writes : s.dataFaults n = false → f.Frames s (access s)) :
    f.Frames s (s.withData n access) := by
  obtain ⟨hd, e⟩ | ⟨hd, e⟩ := s.withData_cases n access <;> rw [e]
  · exact (frames_halt s _).mono { exec := fun _ => fails hd }
  · exact writes hd

theorem frames_draw (s : State) (x y : RegIx) (n : Nat) :
    Footprint.Frames { v := fun r => r = vf, disp := True } s (s.draw x y n) :=
  .trans ((frames_disp s _).mono { disp := id }) ((frames_setV _ vf _).mono { v := fun _ => id })

/-- The registers V[0] .. V[x] stored, with the advance of I (R151). -/
theorem frames_storeRegisters (s : State) (x : RegIx) :
    Footprint.Frames { mem := s.dataBytes (x.val + 1), i := s.variant = .base } s
      ((s.writeBlock 0 (s.v.toList.take (x.val + 1))).advanceIndex x) := by
  have stored : (s.v.toList.take (x.val + 1)).length = x.val + 1 := by simp
  have write := frames_writeBlock s (s.v.toList.take (x.val + 1))
  exact .trans (write.mono { mem := fun _ => by rw [stored]; exact id })
    ((frames_advanceIndex _ x).mono { i := write.variant ▸ id })

/-- The registers V[0] .. V[x] loaded, with the advance of I (R152). -/
theorem frames_loadRegisters (s : State) (x : RegIx) :
    Footprint.Frames { v := fun r => r ≤ x, i := s.variant = .base } s
      (State.advanceIndex { s with v := writeRegisters s.v 0 (s.readBlock (x.val + 1)) } x) :=
  .trans ((frames_writeRegisters s _).mono { v := fun r hr => Nat.lt_succ_iff.mp (by simpa using hr) })
    ((frames_advanceIndex _ x).mono { i := id })

theorem exec_ret_frames (s : State) : ∃ t, exec .ret s = .next t ∧ (footprint .ret s).Frames s t := by
  by_cases h : s.sp.val = 0
  · refine ⟨s.halt .stackUnderflow, by simp [exec, execRet, State.pop_empty h], ?_⟩
    exact (frames_halt s _).mono { exec := fun _ => Fin.ext h }
  · have hsp : s.sp ≠ 0 := fun e => h (by simp [e])
    refine ⟨_, by simp only [exec, execRet, State.pop_nonempty h]; rfl, ?_⟩
    exact .trans ((frames_sp s _).mono { sp := fun _ => hsp }) ((frames_setPc _ _).mono { pc := fun _ => hsp })

theorem exec_call_frames (s : State) (nnn : Addr) :
    ∃ t, exec (.call nnn) s = .next t ∧ (footprint (.call nnn) s).Frames s t := by
  cases h : s.push s.pc with
  | none =>
    have full : s.stackFull := by
      by_contra room
      obtain ⟨_, e⟩ := State.push_room s.pc (Nat.lt_of_not_le room)
      simp [e] at h
    refine ⟨s.halt .stackOverflow, by simp [exec, execCall, h], ?_⟩
    exact (frames_halt s _).mono { exec := fun _ => full }
  | some t =>
    have room : ¬ s.stackFull := fun full => by simp [State.push_full s.pc full] at h
    refine ⟨t.setPc (zextAddr nnn), by simp [exec, execCall, h], ?_⟩
    exact .trans ((frames_push h).mono { sp := fun _ => room, stk := fun _ hk => ⟨room, hk⟩ })
      ((frames_setPc t _).mono { pc := fun _ => room })

/-- Every instruction answers a next state and keeps to its footprint (R10 to R23, R161). -/
theorem exec_frames (i : Instr) (s : State) : ∃ t, exec i s = .next t ∧ (footprint i s).Frames s t := by
  cases i with
  | ret => exact exec_ret_frames s
  | call nnn => exact exec_call_frames s nnn
  | cls => exact ⟨_, rfl, frames_disp s _⟩
  | jp | jpV0 => exact ⟨_, rfl, frames_setPc s _⟩
  | seImm | seReg => exact ⟨_, rfl, (frames_skipIf s _).mono { pc := eq_of_beq }⟩
  | sneImm | sneReg => exact ⟨_, rfl, (frames_skipIf s _).mono { pc := bne_iff_ne.mp }⟩
  | skp => exact ⟨_, rfl, frames_skipIf s _⟩
  | sknp => exact ⟨_, rfl, (frames_skipIf s _).mono { pc := Bool.not_eq_eq_eq_not.mp }⟩
  | ldImm x | addImm x | ldReg x | ldVxDt x => exact ⟨_, rfl, frames_setV s x _⟩
  | orReg x | andReg x | xorReg x => exact ⟨_, rfl, frames_writeLogic s x _⟩
  | addReg x | subReg x | shrReg x | subnReg x | shlReg x => exact ⟨_, rfl, frames_writeResultFlag s x _ _⟩
  | ldI | addI | ldF => exact ⟨_, rfl, frames_setI s _⟩
  | rnd x => exact ⟨_, rfl, frames_drawByte s x _⟩
  | ldVxK => exact ⟨_, rfl, frames_exec s _⟩
  | ldDtVx => exact ⟨_, rfl, frames_dt s _⟩
  | ldStVx => exact ⟨_, rfl, frames_st s _⟩
  | drw x y n => exact ⟨_, rfl, frames_withData s _ _ id fun ok => (frames_draw s x y n.val).mono
      { v := fun _ => .intro ok, disp := fun _ => ok }⟩
  | ldB x => exact ⟨_, rfl, frames_withData s _ _ id fun ok => (frames_writeBlock s _).mono
      { mem := fun _ => .intro ok }⟩
  | ldIndVx x => exact ⟨_, rfl, frames_withData s _ _ id fun ok => (frames_storeRegisters s x).mono
      { mem := fun _ => .intro ok, i := .intro ok }⟩
  | ldVxInd x => exact ⟨_, rfl, frames_withData s _ _ id fun ok => (frames_loadRegisters s x).mono
      { v := fun _ => .intro ok, i := .intro ok }⟩

/-! ### What no step but the host's own writes -/

/-- The inputs the host owns (R6) and the open parameters are the same in both states. -/
structure SameInputs (s t : State) : Prop where
  run : t.run = s.run
  key : t.key = s.key
  variant : t.variant = s.variant
  params : t.params = s.params

theorem Footprint.Frames.sameInputs {f : Footprint} {s t : State} (h : f.Frames s t) : SameInputs s t :=
  ⟨h.run, h.key, h.variant, h.params⟩

theorem exec_sameInputs {i : Instr} {s t : State} (h : exec i s = .next t) : SameInputs s t := by
  obtain ⟨u, hu, frames⟩ := exec_frames i s
  cases hu.symm.trans h
  exact frames.sameInputs

/-- The strap's code is the code of the variant it names (R26). -/
theorem code_of_variantOfCode {code : BitVec 2} {a : Variant} (h : variantOfCode code = some a) : a.code = code := by
  revert code a
  decide

/-- A step keeps the host's inputs, or it is the host's write of a key, its write of RUN, or its strap. -/
theorem step_inputs {s t : State} (h : step s = .next t) :
    SameInputs s t ∨
    (∃ k down, s.nextMove = .setKey k down ∧ t = hostKey k down s.popAgenda) ∨
    (∃ r b, s.nextMove = .setRun r ∧ t = { s.popAgenda with run := r, boot := b }) ∨
    (∃ code a, s.nextMove = .strap code ∧ variantOfCode code = some a ∧
      t = { s.popAgenda with variant := a, boot := .strapped }) := by
  cases step_cases h with
  | sawStopped _ _ _ eq | idle _ _ _ eq | blocked _ _ _ _ eq | unknown _ _ _ _ _ _ eq
  | keyTaken _ _ _ _ _ _ _ eq | load _ _ _ _ eq => exact .inl (eq ▸ ⟨rfl, rfl, rfl, rfl⟩)
  | instruction _ _ _ _ _ _ ran =>
    obtain ⟨run, key, variant, params⟩ := exec_sameInputs ran
    exact .inl ⟨run, key, variant, params⟩
  | delay _ eq => rw [delayTick_eq] at eq; exact .inl (eq ▸ ⟨rfl, rfl, rfl, rfl⟩)
  | sound _ eq => rw [soundTick_eq] at eq; exact .inl (eq ▸ ⟨rfl, rfl, rfl, rfl⟩)
  | key k down turn eq => exact .inr (.inl ⟨k, down, turn, eq⟩)
  | setRun r turn _ _ eq => exact .inr (.inr (.inl ⟨r, _, turn, eq⟩))
  | strap code a turn _ named eq => exact .inr (.inr (.inr ⟨code, a, turn, named, eq⟩))

/-! ### The host's writes of KEY and RUN (R5) -/

theorem step_eq_makeMove {s : State} {m : Move} (turn : s.nextMove = m) : step s = makeMove m s.popAgenda := by
  rw [step, turn]

theorem getElem_hostKey (k j : KeyIx) (down : Bool) (s : State) :
    (hostKey k down s).key[j.val] = if j = k then down else s.key[j.val] := by
  simp [hostKey, Vector.getElem_set, Fin.ext_iff, eq_comm]

theorem hostRun_leavesStopped {r : RunStatus} {s : State} (stopped : s.run = .stopped) (leaves : r ≠ .stopped) :
    hostRun r s = .refused .leavesStopped :=
  if_pos ⟨stopped, leaves⟩

theorem hostRun_runBeforeBoot {s : State} (live : s.run ≠ .stopped) (early : s.bootDone = false) :
    hostRun .running s = .refused .runBeforeBoot :=
  (if_neg fun h => live h.1).trans (if_pos ⟨rfl, early⟩)

theorem hostRun_allowed {r : RunStatus} {s : State} (latch : s.run ≠ .stopped ∨ r = .stopped)
    (order : r ≠ .running ∨ s.bootDone = true) :
    hostRun r s = .next { s with run := r, boot := if r = .running then .started else s.boot } :=
  (if_neg fun h => latch.elim (· h.1) h.2).trans
    (if_neg fun h => order.elim (· h.1) (Bool.eq_false_iff.mp h.2))

/-! ### Instructions under another VARIANT (R26) -/

/-- The eight instructions whose meaning looks at VARIANT (R26). -/
def readsVariant : Instr → Bool
  | .orReg _ _ | .andReg _ _ | .xorReg _ _ | .shrReg _ _ | .shlReg _ _ | .ldF _ | .ldIndVx _ | .ldVxInd _ => true
  | .cls | .ret | .jp _ | .call _ | .seImm _ _ | .sneImm _ _ | .seReg _ _ | .ldImm _ _ | .addImm _ _ | .ldReg _ _
  | .addReg _ _ | .subReg _ _ | .subnReg _ _ | .sneReg _ _ | .ldI _ | .jpV0 _ | .rnd _ _ | .drw _ _ _ | .skp _
  | .sknp _ | .ldVxDt _ | .ldVxK _ | .ldDtVx _ | .ldStVx _ | .addI _ | .ldB _ => false

theorem readsVariant_eq_false {i : Instr}
    (h : ∀ x y, i ≠ .orReg x y ∧ i ≠ .andReg x y ∧ i ≠ .xorReg x y ∧ i ≠ .shrReg x y ∧ i ≠ .shlReg x y ∧
      i ≠ .ldF x ∧ i ≠ .ldIndVx x ∧ i ≠ .ldVxInd x) : readsVariant i = false := by
  cases i with
  | orReg x y | andReg x y | xorReg x y | shrReg x y | shlReg x y => simpa using h x y
  | ldF x | ldIndVx x | ldVxInd x => simpa using h x 0
  | _ => rfl

/-- The state with VARIANT replaced. -/
def State.withVariant (s : State) (b : Variant) : State := { s with variant := b }

section Operations

variable (s : State) (b : Variant)

theorem State.skipIf_withVariant (c : Bool) : (s.withVariant b).skipIf c = (s.skipIf c).withVariant b := by
  cases c <;> rfl

theorem State.writeResultFlag_withVariant (x : RegIx) (r : Byte) (f : Bool) :
    (s.withVariant b).writeResultFlag x r f = (s.writeResultFlag x r f).withVariant b := by
  have same : (s.withVariant b).params = s.params := rfl
  unfold State.writeResultFlag
  rw [same]
  cases s.params.flagOrder <;> rfl

theorem State.pop_withVariant : (s.withVariant b).pop = s.pop.map fun p => (p.1, p.2.withVariant b) := by
  by_cases empty : s.sp.val = 0 <;> simp [State.pop, State.withVariant, empty]

theorem State.push_withVariant (a : Word) : (s.withVariant b).push a = (s.push a).map (·.withVariant b) := by
  by_cases room : s.sp.val < s.params.stackUsable.entries <;> simp [State.push, State.withVariant, room]

theorem State.writeBlock_withVariant (k : Nat) (bs : List Byte) :
    (s.withVariant b).writeBlock k bs = (s.writeBlock k bs).withVariant b := by
  induction bs generalizing s k with
  | nil => rfl
  | cons c cs ih => exact ih { s with mem := s.mem.write (s.dataAddr k) c } (k + 1)

theorem State.withData_withVariant (n : Nat) {f : State → State}
    (h : f (s.withVariant b) = (f s).withVariant b) :
    (s.withVariant b).withData n f = (s.withData n f).withVariant b := by
  have same : (s.withVariant b).dataFaults n = s.dataFaults n := rfl
  unfold State.withData
  rw [same, h]
  split <;> rfl

end Operations

/-! In the extended variants the four operations that look at VARIANT do the same (R103, R108, R122, R151). -/

section Extended

variable {s : State} {b : Variant} (hs : s.variant ≠ .base) (hb : b ≠ .base)
include hs

theorem State.shiftSource_extended (x y : RegIx) : s.shiftSource x y = s.readV x := by
  unfold State.shiftSource
  split <;> trivial

theorem State.fontCode_extended (x : RegIx) : s.fontCode x = s.readV x := by
  unfold State.fontCode
  split <;> trivial

theorem State.advanceIndex_extended (x : RegIx) : s.advanceIndex x = s := by
  simp [State.advanceIndex_eq, hs]

include hb

theorem State.writeLogic_withVariant (x : RegIx) (r : Byte) :
    (s.withVariant b).writeLogic x r = (s.writeLogic x r).withVariant b := by
  rw [s.writeLogic_extended x r hs, State.writeLogic_extended _ x r hb]
  rfl

theorem State.shiftSource_withVariant (x y : RegIx) : (s.withVariant b).shiftSource x y = s.shiftSource x y := by
  rw [State.shiftSource_extended hs, State.shiftSource_extended hb]
  rfl

theorem State.fontCode_withVariant (x : RegIx) : (s.withVariant b).fontCode x = s.fontCode x := by
  rw [State.fontCode_extended hs, State.fontCode_extended hb]
  rfl

theorem State.advanceIndex_withVariant (x : RegIx) :
    (s.withVariant b).advanceIndex x = (s.advanceIndex x).withVariant b := by
  rw [State.advanceIndex_extended hs, State.advanceIndex_extended hb]

end Extended

/-- An instruction that does not read VARIANT behaves alike under every variant (R26). -/
theorem exec_withVariant_of_not_reads {i : Instr} {s t : State} (b : Variant) (h : readsVariant i = false)
    (ran : exec i s = .next t) : exec i (s.withVariant b) = .next (t.withVariant b) := by
  cases i with
  | orReg | andReg | xorReg | shrReg | shlReg | ldF | ldIndVx | ldVxInd => cases h
  | cls | jp | ldImm | addImm | ldReg | ldI | jpV0 | rnd | ldVxDt | ldVxK | ldDtVx | ldStVx | addI => cases ran; rfl
  | seImm | sneImm | seReg | sneReg | skp | sknp =>
    cases ran
    exact congrArg Host.Outcome.next (s.skipIf_withVariant b _)
  | addReg | subReg | subnReg =>
    cases ran
    exact congrArg Host.Outcome.next (s.writeResultFlag_withVariant b _ _ _)
  | ret =>
    simp only [exec, execRet, State.pop_withVariant] at ran ⊢
    cases hp : s.pop <;> (rw [hp] at ran; cases ran; rfl)
  | call =>
    have push : (s.withVariant b).push (s.withVariant b).pc = (s.push s.pc).map (·.withVariant b) :=
      s.push_withVariant b s.pc
    simp only [exec, execCall, push] at ran ⊢
    cases hp : s.push s.pc <;> (rw [hp] at ran; cases ran; rfl)
  | drw =>
    cases ran
    exact congrArg Host.Outcome.next (s.withData_withVariant b _ rfl)
  | ldB =>
    cases ran
    exact congrArg Host.Outcome.next (s.withData_withVariant b _ (s.writeBlock_withVariant b _ _))

/-- Every instruction behaves alike under the extended variants (D29). -/
theorem exec_withVariant_of_extended (i : Instr) {s t : State} {b : Variant} (hs : s.variant ≠ .base)
    (hb : b ≠ .base) (ran : exec i s = .next t) : exec i (s.withVariant b) = .next (t.withVariant b) := by
  cases i with
  | orReg | andReg | xorReg =>
    cases ran
    exact congrArg Host.Outcome.next (State.writeLogic_withVariant hs hb _ _)
  | shrReg x y | shlReg x y =>
    cases ran
    simp only [exec, execShrReg, execShlReg, State.shiftSource_withVariant hs hb]
    exact congrArg Host.Outcome.next (s.writeResultFlag_withVariant b _ _ _)
  | ldF x => cases ran; rw [exec, execLdF, State.fontCode_withVariant hs hb]; rfl
  | ldIndVx x =>
    cases ran
    have stored : (s.writeBlock 0 (s.v.toList.take (x.val + 1))).variant ≠ .base := by
      rw [State.writeBlock_eq]; exact hs
    exact congrArg Host.Outcome.next (s.withData_withVariant b _
      ((congrArg (·.advanceIndex x) (s.writeBlock_withVariant b 0 _)).trans
        (State.advanceIndex_withVariant stored hb x)))
  | ldVxInd x =>
    cases ran
    have loaded : ({ s with v := writeRegisters s.v 0 (s.readBlock (x.val + 1)) } : State).variant ≠ .base := hs
    exact congrArg Host.Outcome.next (s.withData_withVariant b _ (State.advanceIndex_withVariant loaded hb x))
  | _ => exact exec_withVariant_of_not_reads b rfl ran

/-! ### The statements of 00_scope.md -/

/-- Settles O15: the three steps that write an input are the host's own moves (`step_inputs`). -/
theorem onlyTheHostWritesItsInputs : Obligations.OnlyTheHostWritesItsInputs := by
  unfold Obligations.OnlyTheHostWritesItsInputs
  intro s t h
  obtain same | ⟨k, down, turn, rfl⟩ | ⟨r, b, turn, rfl⟩ | ⟨code, a, turn, named, rfl⟩ := step_inputs h
  · exact ⟨fun h => absurd same.run h, fun h => absurd same.key h, fun h => absurd same.variant h, same.params⟩
  · exact ⟨fun h => absurd rfl h, fun _ => ⟨k, down, turn⟩, fun h => absurd rfl h, rfl⟩
  · exact ⟨fun _ => ⟨r, turn, rfl⟩, fun h => absurd rfl h, fun h => absurd rfl h, rfl⟩
  · exact ⟨fun h => absurd rfl h, fun h => absurd rfl h,
      fun _ => ⟨code, turn, code_of_variantOfCode named⟩, rfl⟩

/-- Settles O23: the move is `hostKey` or `hostRun`, and each of the latter's three answers has its own lemma. -/
theorem hostWritesKeysAndRunStatus : Obligations.HostWritesKeysAndRunStatus := by
  unfold Obligations.HostWritesKeysAndRunStatus
  intro s
  refine ⟨fun k down turn => ?_, fun r turn => ?_⟩
  · refine ⟨hostKey k down s.popAgenda, step_eq_makeMove turn, ?_, fun j other => ?_, rfl, rfl, ?_⟩
    · simp [getElem_hostKey]
    · simp [getElem_hostKey, other]
    · exact ⟨rfl, rfl, rfl, rfl, rfl, fun _ => rfl, rfl, rfl⟩
  · rw [step_eq_makeMove turn]
    refine ⟨fun stopped => hostRun_leavesStopped stopped, ?_, fun latch order => ?_⟩
    · rintro live rfl early
      exact hostRun_runBeforeBoot live (by obtain e | e := early <;> simp [State.bootDone, e])
    · exact ⟨_, hostRun_allowed latch (order.imp_right s.bootDone_iff.mpr), rfl, rfl, rfl,
        ⟨rfl, rfl, rfl, rfl, rfl, fun _ => rfl, rfl, rfl⟩⟩

/-- Settles O28: an instruction that does not look at VARIANT is blind to it (`exec_withVariant_of_not_reads`), and
the operations that look at it ask only whether it is Base (`exec_withVariant_of_extended`). -/
theorem variantsDifferOnlyAtEightInstructions : Obligations.VariantsDifferOnlyAtEightInstructions := by
  unfold Obligations.VariantsDifferOnlyAtEightInstructions
  rintro i s t a b (⟨ha, hb⟩ | other) ran
  · exact exec_withVariant_of_extended (s := s.withVariant a) i ha hb ran
  · exact exec_withVariant_of_not_reads (s := s.withVariant a) b (readsVariant_eq_false other) ran

end Sys2Proof.Machine
end

section
/-! SUPPORT. The statements of 10_state.md, and what they rest on: when a step runs an instruction (`runs_of_decoded`),
which instructions write memory, the display and the timers (read off `footprint`), and how every instruction and every
step keeps memory canonical and the addresses in range. -/

namespace Sys2Proof.Machine

/-! ### The instruction a step runs (R43, R60) -/

theorem State.wordAtPc_fetchWord (s : State) : s.WordAtPc s.fetchWord := by
  unfold State.WordAtPc State.fetchWord wordOfBytes
  rw [BitVec.toNat_append, ← Nat.shiftLeft_add_eq_or_of_lt (BitVec.isLt _), Nat.shiftLeft_eq]

theorem State.fetchBlocked_eq_false_iff (s : State) :
    s.fetchBlocked = false ↔ s.pc.toNat ≤ 0x0FFE ∧ (s.params.pcAlignCheck = true → s.pc.toNat % 2 = 0) := by
  simp [State.fetchBlocked]

/-- The guards of `StepCase.instruction` are what the statements call running `i`. -/
theorem State.runs_of_decoded {s : State} {i : Instr} (turn : s.nextMove = .execUnit) (runnable : s.exec = .runnable)
    (run : s.run = .running) (inside : s.fetchBlocked = false)
    (decoded : decodeFor s.params s.fetchWord = .ok i) : s.Runs i := by
  obtain ⟨le, even⟩ := s.fetchBlocked_eq_false_iff.mp inside
  exact ⟨⟨turn, runnable, run, le, even⟩, s.fetchWord, s.wordAtPc_fetchWord, decoded⟩

theorem exec_frames_of_next {i : Instr} {s t : State} (ran : exec i s = .next t) : (footprint i s).Frames s t := by
  obtain ⟨u, hu, frames⟩ := exec_frames i s
  cases hu.symm.trans ran
  exact frames

/-! ### Which instructions write an element -/

theorem stores_of_footprint_mem {i : Instr} {s : State} {a : Nat} (h : (footprint i s).mem a) :
    ∃ x, i = .ldB x ∨ i = .ldIndVx x := by
  cases i with
  | ldB x => exact ⟨x, .inl rfl⟩
  | ldIndVx x => exact ⟨x, .inr rfl⟩
  | _ => exact h.elim

theorem draws_of_footprint_disp {i : Instr} {s : State} (h : (footprint i s).disp) :
    i = .cls ∨ ∃ x y n, i = .drw x y n := by
  cases i with
  | cls => exact .inl rfl
  | drw x y n => exact .inr ⟨x, y, n, rfl⟩
  | _ => exact h.elim

theorem loads_of_footprint_dt {i : Instr} {s : State} (h : (footprint i s).dt) : ∃ x, i = .ldDtVx x := by
  cases i with
  | ldDtVx x => exact ⟨x, rfl⟩
  | _ => exact h.elim

theorem loads_of_footprint_st {i : Instr} {s : State} (h : (footprint i s).st) : ∃ x, i = .ldStVx x := by
  cases i with
  | ldStVx x => exact ⟨x, rfl⟩
  | _ => exact h.elim

/-! ### One tick (R21, R22, R175) -/

theorem countDown_toNat_succ {b : Byte} (h : countDown b ≠ b) : (countDown b).toNat + 1 = b.toNat := by
  have nonzero : b.toNat ≠ 0 := by
    intro zero
    have : b = 0 := BitVec.eq_of_toNat_eq zero
    exact h (this ▸ rfl)
  rw [countDown_toNat]
  omega

theorem delayTick_dt_of_ne {s : State} (h : (delayTick s).dt ≠ s.dt) : (delayTick s).dt.toNat + 1 = s.dt.toNat := by
  rw [delayTick_eq] at h ⊢
  dsimp only at h ⊢
  split at h
  · rw [if_pos ‹_›]; exact countDown_toNat_succ h
  · exact absurd rfl h

theorem soundTick_st_of_ne {s : State} (h : (soundTick s).st ≠ s.st) : (soundTick s).st.toNat + 1 = s.st.toNat := by
  rw [soundTick_eq] at h ⊢
  dsimp only at h ⊢
  split at h
  · rw [if_pos ‹_›]; exact countDown_toNat_succ h
  · exact absurd rfl h

/-! ### Memory stays canonical (R18) -/

/-- An access behind CheckData keeps memory canonical if the access itself does; a failed check writes no memory. -/
theorem State.withData_mem_wf {s : State} (n : Nat) {access : State → State} (wf : s.mem.wf)
    (keeps : (access s).mem.wf) : (s.withData n access).mem.wf := by
  obtain ⟨-, e⟩ | ⟨-, e⟩ := s.withData_cases n access <;> rw [e]
  · exact wf
  · exact keeps

theorem State.advanceIndex_mem (s : State) (x : RegIx) : (s.advanceIndex x).mem = s.mem := by
  rw [State.advanceIndex_eq]

theorem State.skipIf_mem (s : State) (b : Bool) : (s.skipIf b).mem = s.mem := by
  rw [State.skipIf_eq]

theorem exec_mem_wf {i : Instr} {s t : State} (wf : s.mem.wf) (ran : exec i s = .next t) : t.mem.wf := by
  cases i with
  | ret =>
    simp only [exec, execRet] at ran
    by_cases empty : s.sp.val = 0
    · rw [State.pop_empty empty] at ran; cases ran; exact wf
    · rw [State.pop_nonempty empty] at ran; cases ran; exact wf
  | call nnn =>
    simp only [exec, execCall] at ran
    by_cases room : s.sp.val < s.params.stackUsable.entries
    · obtain ⟨_, e⟩ := State.push_room s.pc room
      rw [e] at ran; cases ran; exact wf
    · rw [State.push_full s.pc (Nat.le_of_not_lt room)] at ran; cases ran; exact wf
  | seImm | sneImm | seReg | sneReg | skp | sknp => cases ran; rw [State.skipIf_mem]; exact wf
  | orReg | andReg | xorReg => cases ran; rw [State.writeLogic_eq]; exact wf
  | addReg | subReg | shrReg | subnReg | shlReg => cases ran; rw [State.writeResultFlag_eq]; exact wf
  | drw => cases ran; exact State.withData_mem_wf _ wf wf
  | ldB => cases ran; exact State.withData_mem_wf _ wf (s.writeBlock_wf _ 0 wf)
  | ldIndVx =>
    cases ran
    exact State.withData_mem_wf _ wf (by rw [State.advanceIndex_mem]; exact s.writeBlock_wf _ 0 wf)
  | ldVxInd => cases ran; exact State.withData_mem_wf _ wf (by rw [State.advanceIndex_mem]; exact wf)
  | _ => cases ran; exact wf

/-! ### Addresses stay in range (R14, R16, R82, R87) -/

theorem toNat_add_two {a : Word} (h : a.toNat ≤ 0x1000) : (a + 2).toNat = a.toNat + 2 := by
  have two : (2 : Word).toNat = 2 := rfl
  rw [BitVec.toNat_add, two]
  omega

/-- A new PC in range keeps the addresses in range where stack, SP and parameters stay as they are. -/
theorem State.AddressesInRange.of_same_stack {s t : State} (h : s.AddressesInRange) (pc_le : t.pc.toNat ≤ 0x10FE)
    (sp : t.sp = s.sp) (stk : ∀ k : Fin 16, t.stk[k.val] = s.stk[k.val]) (params : t.params = s.params) :
    t.AddressesInRange where
  pc_le := pc_le
  entry_le k hk := stk k ▸ h.entry_le k (sp ▸ hk)
  sp_le := by rw [sp, params]; exact h.sp_le

theorem zextAddr_toNat (nnn : Addr) : (zextAddr nnn).toNat = nnn.toNat := by
  have := nnn.isLt
  simp only [zextAddr, BitVec.toNat_setWidth]
  omega

theorem zextAddr_le (nnn : Addr) : (zextAddr nnn).toNat ≤ 0x0FFF := by
  have := nnn.isLt
  rw [zextAddr_toNat]
  omega

/-- The highest target of JP V0, NNN is 0xFFF + 0xFF (R14, R87). -/
theorem State.indexedTarget_le (s : State) (nnn : Addr) : (s.indexedTarget nnn).toNat ≤ 0x10FE := by
  have base := zextAddr_le nnn
  have offset : (zextByte (s.readV 0)).toNat ≤ 0xFF := by
    have := (s.readV 0).isLt
    simp only [zextByte, BitVec.toNat_setWidth]
    omega
  rw [State.indexedTarget, BitVec.toNat_add]
  omega

theorem State.skipIf_pc_le {s : State} (b : Bool) (h : s.pc.toNat ≤ 0x1000) : (s.skipIf b).pc.toNat ≤ 0x10FE := by
  cases b
  · exact h.trans (by decide)
  · exact (toNat_add_two h).trans_le (by omega)

/-- A push of an address that may be a return address keeps the stack's part of the invariant (R82). -/
theorem State.AddressesInRange.push {s t : State} {a : Word} (h : s.AddressesInRange) (ha : a.toNat ≤ 0x1000)
    (pushed : s.push a = some t) : t.AddressesInRange := by
  have room : s.sp.val < s.params.stackUsable.entries := by
    by_contra full
    rw [State.push_full a (Nat.le_of_not_lt full)] at pushed
    cases pushed
  obtain ⟨_, e⟩ := State.push_room a room
  rw [e] at pushed
  cases pushed
  refine ⟨h.pc_le, fun k hk => ?_, room⟩
  by_cases top : s.sp.val = k.val
  · simpa [top] using ha
  · have old : k.val < s.sp.val := by simp only at hk; omega
    simpa [Vector.getElem_set, top] using h.entry_le k old

/-- A pop uncovers a return address, and keeps the invariant (R80). -/
theorem State.AddressesInRange.pop {s t : State} {a : Word} (h : s.AddressesInRange) (popped : s.pop = some (a, t)) :
    a.toNat ≤ 0x1000 ∧ t.AddressesInRange := by
  have nonempty : s.sp.val ≠ 0 := by
    intro empty
    rw [State.pop_empty empty] at popped
    cases popped
  rw [State.pop_nonempty nonempty] at popped
  cases popped
  have size := s.sp.isLt
  refine ⟨h.entry_le ⟨s.sp.val - 1, by omega⟩ (by simp only; omega), h.pc_le, fun k hk => ?_, ?_⟩
  · exact h.entry_le k (by simp only at hk; omega)
  · exact (Nat.sub_le _ _).trans h.sp_le

/-- Every instruction that starts with the advanced PC at most 0x1000 keeps the addresses in range. -/
theorem exec_addressesInRange {i : Instr} {s t : State} (h : s.AddressesInRange) (hpc : s.pc.toNat ≤ 0x1000)
    (ran : exec i s = .next t) : t.AddressesInRange := by
  have frames := exec_frames_of_next ran
  cases i with
  | ret =>
    simp only [exec, execRet] at ran
    split at ran
    · cases ran; exact h.of_same_stack h.pc_le rfl (fun _ => rfl) rfl
    · rename_i popped
      cases ran
      obtain ⟨entry, inv⟩ := h.pop popped
      exact inv.of_same_stack (entry.trans (by decide)) rfl (fun _ => rfl) rfl
  | call nnn =>
    simp only [exec, execCall] at ran
    split at ran
    · cases ran; exact h.of_same_stack h.pc_le rfl (fun _ => rfl) rfl
    · rename_i pushed
      cases ran
      exact (h.push hpc pushed).of_same_stack ((zextAddr_le nnn).trans (by decide)) rfl (fun _ => rfl) rfl
  | jp nnn => cases ran; exact h.of_same_stack ((zextAddr_le nnn).trans (by decide)) rfl (fun _ => rfl) rfl
  | jpV0 nnn => cases ran; exact h.of_same_stack (s.indexedTarget_le nnn) rfl (fun _ => rfl) rfl
  | seImm | sneImm | seReg | sneReg | skp | sknp =>
    have pc_le : t.pc.toNat ≤ 0x10FE := by cases ran; exact State.skipIf_pc_le _ hpc
    exact h.of_same_stack pc_le (frames.sp id) (fun k => frames.stk k id) frames.params
  | _ => exact h.of_same_stack (frames.pc id ▸ h.pc_le) (frames.sp id) (fun k => frames.stk k id) frames.params

/-- The advanced PC of a fetch inside MEM (R43, R60). -/
theorem State.fetched_pc_le (s : State) (inside : s.fetchBlocked = false) : s.fetched.pc.toNat ≤ 0x1000 := by
  obtain ⟨le, -⟩ := s.fetchBlocked_eq_false_iff.mp inside
  rw [State.fetched_pc, toNat_add_two (by omega)]
  omega

/-! ### The statements of 10_state.md -/

/-- Settles O24: each operation has its frame, and `exec_frames` puts them together instruction by instruction. -/
theorem everyInstructionKeepsToItsFootprint : Obligations.EveryInstructionKeepsToItsFootprint := by
  unfold Obligations.EveryInstructionKeepsToItsFootprint
  exact exec_frames

/-- Settles O29: only an instruction (`exec_mem_wf`) and the loader (`Memory.loaded_wf`) write memory. -/
theorem stepKeepsMemoryCanonical : Obligations.StepKeepsMemoryCanonical := by
  unfold Obligations.StepKeepsMemoryCanonical
  intro s t wf h
  cases step_cases h with
  | instruction i _ _ _ _ _ ran => exact exec_mem_wf (s := s.popAgenda.fetched) wf ran
  | load image _ _ fits eq => subst eq; exact Memory.loaded_wf _ fits
  | delay _ eq => rw [eq, delayTick_eq]; exact wf
  | sound _ eq => rw [eq, soundTick_eq]; exact wf
  | sawStopped _ _ _ eq | idle _ _ _ eq | blocked _ _ _ _ eq | unknown _ _ _ _ _ _ eq | keyTaken _ _ _ _ _ _ _ eq
  | key _ _ _ eq | setRun _ _ _ _ eq | strap _ _ _ _ _ eq => subst eq; exact wf

/-- Settles O30: a fetch leaves PC at most 0x1000, and from there every instruction keeps the addresses in range
(`exec_addressesInRange`); no other step writes the stack. -/
theorem stepKeepsAddressesInRange : Obligations.StepKeepsAddressesInRange := by
  unfold Obligations.StepKeepsAddressesInRange
  intro s t inv h
  cases step_cases h with
  | instruction i _ _ _ inside _ ran =>
    have pc_le : s.popAgenda.fetched.pc.toNat ≤ 0x1000 := s.popAgenda.fetched_pc_le inside
    exact exec_addressesInRange (inv.of_same_stack (pc_le.trans (by decide)) rfl (fun _ => rfl) rfl) pc_le ran
  | unknown _ _ _ _ inside _ eq =>
    subst eq
    exact inv.of_same_stack ((s.popAgenda.fetched_pc_le inside).trans (by decide)) rfl (fun _ => rfl) rfl
  | delay _ eq => rw [eq, delayTick_eq]; exact inv.of_same_stack inv.pc_le rfl (fun _ => rfl) rfl
  | sound _ eq => rw [eq, soundTick_eq]; exact inv.of_same_stack inv.pc_le rfl (fun _ => rfl) rfl
  | sawStopped _ _ _ eq | idle _ _ _ eq | blocked _ _ _ _ eq | keyTaken _ _ _ _ _ _ _ eq | key _ _ _ eq
  | setRun _ _ _ _ eq | load _ _ _ _ eq | strap _ _ _ _ _ eq =>
    subst eq; exact inv.of_same_stack inv.pc_le rfl (fun _ => rfl) rfl

/-- Settles O16: load and strap are refused once the machine is started, and of the instructions only the two stores
have memory in their footprint. -/
theorem memoryAndVariantAfterStart : Obligations.MemoryAndVariantAfterStart := by
  unfold Obligations.MemoryAndVariantAfterStart
  intro s t started h
  cases step_cases h with
  | instruction i turn runnable run inside decoded ran =>
    have frames := exec_frames_of_next ran
    refine ⟨frames.boot.trans started, frames.variant, fun ⟨a, changed⟩ => ?_⟩
    have runs := State.runs_of_decoded turn runnable run inside decoded
    obtain ⟨x, rfl | rfl⟩ := stores_of_footprint_mem (not_imp_comm.mp (frames.mem a) changed)
    · exact ⟨x, .inl runs⟩
    · exact ⟨x, .inr runs⟩
  | load _ _ allowed _ eq => simp [State.mayLoad_iff, started] at allowed
  | strap _ _ _ allowed _ eq => simp [State.mayStrap_iff, started] at allowed
  | setRun r _ _ _ eq =>
    subst eq
    exact ⟨by simp [started], rfl, fun ⟨_, changed⟩ => absurd rfl changed⟩
  | delay _ eq => rw [eq, delayTick_eq]; exact ⟨started, rfl, fun ⟨_, changed⟩ => absurd rfl changed⟩
  | sound _ eq => rw [eq, soundTick_eq]; exact ⟨started, rfl, fun ⟨_, changed⟩ => absurd rfl changed⟩
  | sawStopped _ _ _ eq | idle _ _ _ eq | blocked _ _ _ _ eq | unknown _ _ _ _ _ _ eq | keyTaken _ _ _ _ _ _ _ eq
  | key _ _ _ eq => subst eq; exact ⟨started, rfl, fun ⟨_, changed⟩ => absurd rfl changed⟩

/-- Settles O17: of the steps only an instruction can write the display, and of the instructions only CLS and DRW
have it in their footprint. -/
theorem displayChangesOnlyByClsAndDrw : Obligations.DisplayChangesOnlyByClsAndDrw := by
  unfold Obligations.DisplayChangesOnlyByClsAndDrw
  intro s t h changed
  cases step_cases h with
  | instruction i turn runnable run inside decoded ran =>
    have frames := exec_frames_of_next ran
    have runs := State.runs_of_decoded turn runnable run inside decoded
    obtain rfl | ⟨x, y, n, rfl⟩ := draws_of_footprint_disp (not_imp_comm.mp frames.disp changed)
    · exact .inl runs
    · exact .inr ⟨x, y, n, runs⟩
  | delay _ eq => rw [eq, delayTick_eq] at changed; exact absurd rfl changed
  | sound _ eq => rw [eq, soundTick_eq] at changed; exact absurd rfl changed
  | sawStopped _ _ _ eq | idle _ _ _ eq | blocked _ _ _ _ eq | unknown _ _ _ _ _ _ eq | keyTaken _ _ _ _ _ _ _ eq
  | key _ _ _ eq | setRun _ _ _ _ eq | load _ _ _ _ eq | strap _ _ _ _ _ eq => subst eq; exact absurd rfl changed

/-- Settles O18: a tick that changes its counter takes 1 off, and of the instructions only the load of a timer has it in
its footprint. -/
theorem timersChangeOnlyByTheirTicksAndLoads : Obligations.TimersChangeOnlyByTheirTicksAndLoads := by
  unfold Obligations.TimersChangeOnlyByTheirTicksAndLoads
  intro s t h
  cases step_cases h with
  | instruction i turn runnable run inside decoded ran =>
    have frames := exec_frames_of_next ran
    have runs := State.runs_of_decoded turn runnable run inside decoded
    refine ⟨fun changed => .inr ?_, fun changed => .inr ?_⟩
    · obtain ⟨x, rfl⟩ := loads_of_footprint_dt (not_imp_comm.mp frames.dt changed)
      exact ⟨x, runs⟩
    · obtain ⟨x, rfl⟩ := loads_of_footprint_st (not_imp_comm.mp frames.st changed)
      exact ⟨x, runs⟩
  | delay turn eq =>
    subst eq
    refine ⟨fun changed => .inl ⟨turn, delayTick_dt_of_ne changed⟩, fun changed => absurd ?_ changed⟩
    rw [delayTick_eq]; rfl
  | sound turn eq =>
    subst eq
    refine ⟨fun changed => absurd ?_ changed, fun changed => .inl ⟨turn, soundTick_st_of_ne changed⟩⟩
    rw [soundTick_eq]; rfl
  | sawStopped _ _ _ eq | idle _ _ _ eq | blocked _ _ _ _ eq | unknown _ _ _ _ _ _ eq | keyTaken _ _ _ _ _ _ _ eq
  | key _ _ _ eq | setRun _ _ _ _ eq | load _ _ _ _ eq | strap _ _ _ _ _ eq =>
    subst eq; exact ⟨absurd rfl, absurd rfl⟩

/-- Settles O20: no step but a tick writes a decrementer's life, and a tick writes its own (`delayTick_eq`,
`soundTick_eq`). -/
theorem decrementersDieForGood : Obligations.DecrementersDieForGood := by
  unfold Obligations.DecrementersDieForGood
  refine ⟨rfl, rfl, fun s t h => ?_⟩
  cases step_cases h with
  | delay turn eq =>
    subst eq
    simp only [turn, delayTick_eq]
    by_cases stopped : s.run = .stopped <;> simp +contextual [stopped]
  | sound turn eq =>
    subst eq
    simp only [turn, soundTick_eq]
    by_cases stopped : s.run = .stopped <;> simp +contextual [stopped]
  | instruction i turn _ _ _ _ ran =>
    have frames := exec_frames_of_next ran
    simp [turn, frames.dtAlive, frames.stAlive]
  | sawStopped turn _ _ eq | idle turn _ _ eq | blocked turn _ _ _ eq | unknown _ turn _ _ _ _ eq
  | keyTaken _ _ turn _ _ _ _ eq | key _ _ turn eq | setRun _ turn _ _ eq | load _ turn _ _ eq
  | strap _ _ turn _ _ eq => subst eq; simp [turn, hostKey]

/-- Settles O32: memory lists no cell, the stack is empty, and RUN reads Starting with every agent live. -/
theorem resetMeetsTheInvariants : Obligations.ResetMeetsTheInvariants := by
  unfold Obligations.ResetMeetsTheInvariants
  refine ⟨Memory.wf_nil, ⟨by decide, nofun, by decide⟩, ⟨nofun, nofun, nofun, nofun, nofun⟩⟩

/-- Settles O33: the vectors of reset are constant, its memory lists no cell. -/
theorem resetValues : Obligations.ResetValues := by
  unfold Obligations.ResetValues
  refine ⟨fun x => ?_, rfl, rfl, rfl, fun k => ?_, fun a => rfl, fun y x => ?_, fun k => ?_, rfl, rfl, rfl, rfl, rfl,
    rfl, rfl⟩
  · exact Vector.getElem_replicate x.isLt
  · exact Vector.getElem_replicate k.isLt
  · simp [State.reset, Grid.cell]
  · exact Vector.getElem_replicate k.isLt

end Sys2Proof.Machine
end

section
/-! SUPPORT. The statements of 20_memory.md, and what they rest on: CheckData as the bound `State.InMemory` that the
statements speak of, what an access answers on either side of it, and what memory holds after the bulk store. -/

namespace Sys2Proof.Machine

/-! ### CheckData as a bound (R46) -/

/-- CheckData lets an access through exactly when its bytes lie inside MEM or the addresses wrap. -/
theorem State.dataFaults_eq_false_iff (s : State) (n : Nat) : s.dataFaults n = false ↔ s.InMemory n := by
  unfold State.dataFaults State.InMemory
  cases s.params.dataOob with
  | fault =>
    have fits : ¬ (1 ≤ n ∧ s.i.toNat + n - 1 > 0xFFF) ↔ n = 0 ∨ s.i.toNat + n ≤ 4096 := by omega
    simpa using fits
  | wrap12 => simp

theorem State.withData_of_inMemory {s : State} {n : Nat} (inside : s.InMemory n) (access : State → State) :
    s.withData n access = access s := by
  simp [State.withData, (s.dataFaults_eq_false_iff n).mpr inside]

theorem State.withData_of_not_inMemory {s : State} {n : Nat} (beyond : ¬ s.InMemory n) (access : State → State) :
    s.withData n access = s.halt .memOutOfBounds := by
  have faults : s.dataFaults n = true := by simpa [← s.dataFaults_eq_false_iff] using beyond
  simp [State.withData, faults]

/-! ### Memory after the bulk store (R151), and a fetch from it (R43) -/

theorem exec_ldIndVx_of_inMemory {s : State} {x : RegIx} (inside : s.InMemory (x.val + 1)) :
    exec (.ldIndVx x) s = .next ((s.writeBlock 0 (s.v.toList.take (x.val + 1))).advanceIndex x) :=
  congrArg Host.Outcome.next (State.withData_of_inMemory inside _)

/-- The k-th byte of the block V[0] .. V[x] is V[k]. -/
theorem State.read_storeRegisters {s : State} {x k : RegIx} (wf : s.mem.wf) (le : k ≤ x) :
    ((s.writeBlock 0 (s.v.toList.take (x.val + 1))).advanceIndex x).mem.read (s.dataAddr k.val) = s.readV k := by
  have stored : (s.v.toList.take (x.val + 1)).length = x.val + 1 := by simp
  have lt : k.val < x.val + 1 := Nat.lt_succ_of_le le
  have read := State.read_writeBlock_at (s.v.toList.take (x.val + 1)) s 0 k.val wf (by omega) (by omega)
  simpa [State.advanceIndex_mem] using read

/-- A fetch joins the bytes at PC and PC + 1, the first one high (R43). -/
theorem State.fetchWord_eq_append {u : State} {a : Nat} {hi lo : Byte} (pc : u.pc.toNat = a)
    (first : u.mem.read a = hi) (second : u.mem.read (a + 1) = lo) : u.fetchWord = hi ++ lo := by
  subst pc first second
  rfl

/-! ### The statements of 20_memory.md -/

/-- Settles O26: each of the four data forms is an access behind CheckData, which halts and does nothing else. -/
theorem dataAccessBeyondMemoryHalts : Obligations.DataAccessBeyondMemoryHalts := by
  unfold Obligations.DataAccessBeyondMemoryHalts
  intro s x y n
  have halts {k : Nat} (beyond : ¬ s.InMemory k) (access : State → State) :
      (.next (s.withData k access) : Host.Outcome State Fault Refusal) =
        .next { s with exec := .halted .memOutOfBounds } :=
    congrArg Host.Outcome.next (State.withData_of_not_inMemory beyond access)
  exact ⟨rfl, fun beyond => halts beyond _, fun beyond => halts beyond _,
    fun beyond => ⟨halts beyond _, halts beyond _⟩⟩

/-- Settles O27: under the default policy CheckData has kept the sum below 4096, and under wrap12 the remainder is the
address by definition. -/
theorem dataAddressesAreIPlusOffset : Obligations.DataAddressesAreIPlusOffset := by
  unfold Obligations.DataAddressesAreIPlusOffset
  intro s n k inside lt
  exact ⟨fun fault => State.dataAddr_eq fault ((s.dataFaults_eq_false_iff n).mpr inside) lt, fun _ => rfl⟩

/-- Settles O36: the two bytes stand at the j-th and k-th address of the store (`read_storeRegisters`), which are PC and
PC + 1 of the fetch. -/
theorem storedBytesAreFetched : Obligations.StoredBytesAreFetched := by
  unfold Obligations.StoredBytesAreFetched
  intro s x j k wf inside succ le adjacent
  refine ⟨_, exec_ldIndVx_of_inMemory inside, fun u mem pc => ?_⟩
  have j_le : j ≤ x := le_trans (Fin.le_def.mpr (by omega)) le
  have fetched : u.fetchWord = s.readV j ++ s.readV k :=
    State.fetchWord_eq_append pc (mem ▸ State.read_storeRegisters wf j_le)
      (mem ▸ adjacent ▸ State.read_storeRegisters wf le)
  exact ⟨fetched ▸ u.wordAtPc_fetchWord, fetched⟩

end Sys2Proof.Machine
end

section
/-! SUPPORT. The statements of 30_encoding.md, and what they rest on: a row of the opcode map as a comparison of fields,
a word put together again from its fields, the canonical form of a word that decodes (`encode_of_decodeWord`), what
the parameters take out of the decoder (`wf_eq_false_iff`, `encode_ne_iff`), and the step that fetches
(`State.Fetches.step_eq`). -/

namespace Sys2Proof

/-! ### A row of the opcode map as a comparison of fields (R63, R66) -/

section Rows
variable {p w : Word} {b : Word → Instr}

theorem hits_iff_family (within : p &&& 0xF000#16 = p) :
    (OpcodeRow.mk 0xF000 p b).hits w = true ↔ family w = family p := by
  have masked := toNat_and_family p
  rw [within] at masked
  rw [hits_family, ← BitVec.toNat_inj, toNat_family, toNat_family]
  omega

theorem hits_iff_fieldN (within : p &&& 0xF00F#16 = p) :
    (OpcodeRow.mk 0xF00F p b).hits w = true ↔ family w = family p ∧ fieldN w = fieldN p := by
  have masked := toNat_and_family_low p
  rw [within] at masked
  rw [hits_low, ← BitVec.toNat_inj, Fin.ext_iff, toNat_family, toNat_family, val_fieldN, val_fieldN]
  omega

theorem hits_iff_fieldNN (within : p &&& 0xF0FF#16 = p) :
    (OpcodeRow.mk 0xF0FF p b).hits w = true ↔ family w = family p ∧ fieldNN w = fieldNN p := by
  have masked := toNat_and_family_byte p
  rw [within] at masked
  rw [hits_byte, ← BitVec.toNat_inj, ← BitVec.toNat_inj, toNat_family, toNat_family, toNat_fieldNN, toNat_fieldNN]
  omega

end Rows

/-! ### A word put together again from its fields (R64) -/

section Fields
variable {w : Word} {f : BitVec 4}

theorem packA_eq (h : family w = f) : packA f (fieldNNN w) = w := by
  subst h
  apply BitVec.eq_of_toNat_eq
  rw [toNat_packA, toNat_family, toNat_fieldNNN]
  omega

theorem packXI_eq (h : family w = f) : packXI f (fieldX w) (fieldNN w) = w := by
  subst h
  apply BitVec.eq_of_toNat_eq
  rw [toNat_packXI, toNat_family, val_fieldX, toNat_fieldNN]
  omega

theorem packXI_eq_of_fieldNN {nn : Byte} (h : family w = f ∧ fieldNN w = nn) : packXI f (fieldX w) nn = w :=
  h.2 ▸ packXI_eq h.1

theorem packXY_eq (h : family w = f) :
    packXY f (fieldX w) (fieldY w) (BitVec.ofFin (w := 4) (fieldN w)) = w := by
  subst h
  apply BitVec.eq_of_toNat_eq
  rw [toNat_packXY, toNat_family, val_fieldX, val_fieldY]
  show _ + (fieldN w).val = _
  rw [val_fieldN]
  omega

theorem packXY_eq_of_fieldN {n : Fin 16} (h : family w = f ∧ fieldN w = n) :
    packXY f (fieldX w) (fieldY w) (BitVec.ofFin (w := 4) n) = w :=
  h.2 ▸ packXY_eq h.1

/-! ### The ignored bits (R68) -/

theorem toNat_and_not_fieldN (w : Word) : (w &&& 0xFFF0#16).toNat = w.toNat / 16 * 16 := by
  have shifted : w &&& 0xFFF0#16 = (w >>> 4) <<< 4 := by
    apply BitVec.eq_of_getLsbD_eq
    intro i hi
    interval_cases i <;> simp
  have := w.isLt
  rw [shifted, BitVec.toNat_shiftLeft, BitVec.toNat_ushiftRight, Nat.shiftRight_eq_div_pow, Nat.shiftLeft_eq]
  omega

theorem packXY_zero_eq (h : family w = f) : packXY f (fieldX w) (fieldY w) 0 = w &&& 0xFFF0#16 := by
  subst h
  apply BitVec.eq_of_toNat_eq
  rw [toNat_packXY, toNat_family, val_fieldX, val_fieldY, toNat_and_not_fieldN]
  simp
  omega

theorem and_family_byte_eq_self_iff (w : Word) : w &&& 0xF0FF#16 = w ↔ fieldX w = 0 := by
  have := w.isLt
  rw [← BitVec.toNat_inj, Fin.ext_iff, toNat_and_family_byte, val_fieldX]
  show _ ↔ _ = 0
  omega

theorem and_not_fieldN_eq_self_iff (w : Word) : w &&& 0xFFF0#16 = w ↔ fieldN w = 0 := by
  rw [← BitVec.toNat_inj, Fin.ext_iff, toNat_and_not_fieldN, val_fieldN]
  show _ ↔ _ = 0
  omega

end Fields

/-- The word with the bits cleared that its instruction ignores: X of CLS and RET, N of SE Vx, Vy and SNE Vx, Vy
(R68). -/
def dropIgnored (i : Instr) (w : Word) : Word :=
  match i with
  | .cls | .ret => w &&& 0xF0FF#16
  | .seReg _ _ | .sneReg _ _ => w &&& 0xFFF0#16
  | _ => w

theorem family_dropIgnored (i : Instr) (w : Word) : family (dropIgnored i w) = family w := by
  rw [← BitVec.toNat_inj, toNat_family, toNat_family]
  unfold dropIgnored
  split
  · rw [toNat_and_family_byte]; omega
  · rw [toNat_and_family_byte]; omega
  · rw [toNat_and_not_fieldN]; omega
  · rw [toNat_and_not_fieldN]; omega
  · rfl

/-! ### The canonical form of a word that decodes (R66, R68) -/

/-- A row's instruction is encoded by the row's pattern and the fields it reads, which leaves out the ignored bits. -/
def OpcodeRow.Canonical (w : Word) (r : OpcodeRow) : Prop :=
  r.hits w = true → encode (r.build w) = dropIgnored (r.build w) w

theorem opcodeRowsLow_canonical (w : Word) : ∀ r ∈ opcodeRowsLow, r.Canonical w := by
  simp only [opcodeRowsLow, List.forall_mem_cons]
  exact ⟨fun h => (OpcodeRow.pattern_of_hits h).symm, fun h => (OpcodeRow.pattern_of_hits h).symm,
    fun h => packA_eq ((hits_iff_family rfl).mp h), fun h => packA_eq ((hits_iff_family rfl).mp h),
    fun h => packXI_eq ((hits_iff_family rfl).mp h), fun h => packXI_eq ((hits_iff_family rfl).mp h),
    fun h => packXY_zero_eq ((hits_iff_family rfl).mp h), fun h => packXI_eq ((hits_iff_family rfl).mp h),
    fun h => packXI_eq ((hits_iff_family rfl).mp h), nofun⟩

theorem opcodeRowsAlu_canonical (w : Word) : ∀ r ∈ opcodeRowsAlu, r.Canonical w := by
  simp only [opcodeRowsAlu, List.forall_mem_cons]
  refine ⟨?_, ?_, ?_, ?_, ?_, ?_, ?_, ?_, ?_, nofun⟩
  all_goals exact fun h => packXY_eq_of_fieldN ((hits_iff_fieldN rfl).mp h)

theorem opcodeRowsMid_canonical (w : Word) : ∀ r ∈ opcodeRowsMid, r.Canonical w := by
  simp only [opcodeRowsMid, List.forall_mem_cons]
  exact ⟨fun h => packXY_zero_eq ((hits_iff_family rfl).mp h), fun h => packA_eq ((hits_iff_family rfl).mp h),
    fun h => packA_eq ((hits_iff_family rfl).mp h), fun h => packXI_eq ((hits_iff_family rfl).mp h),
    fun h => packXY_eq ((hits_iff_family rfl).mp h), fun h => packXI_eq_of_fieldNN ((hits_iff_fieldNN rfl).mp h),
    fun h => packXI_eq_of_fieldNN ((hits_iff_fieldNN rfl).mp h), nofun⟩

theorem opcodeRowsHigh_canonical (w : Word) : ∀ r ∈ opcodeRowsHigh, r.Canonical w := by
  simp only [opcodeRowsHigh, List.forall_mem_cons]
  refine ⟨?_, ?_, ?_, ?_, ?_, ?_, ?_, ?_, ?_, nofun⟩
  all_goals exact fun h => packXI_eq_of_fieldNN ((hits_iff_fieldNN rfl).mp h)

theorem encode_of_decodeWord {w : Word} {i : Instr} (h : decodeWord w = .ok i) : encode i = dropIgnored i w := by
  obtain ⟨r, mem, hit, rfl⟩ := hits_of_decodeWord h
  have canonical : ∀ r ∈ opcodeRows, r.Canonical w := by
    simp only [opcodeRows, List.forall_mem_append]
    exact ⟨⟨⟨opcodeRowsLow_canonical w, opcodeRowsAlu_canonical w⟩, opcodeRowsMid_canonical w⟩,
      opcodeRowsHigh_canonical w⟩
  exact canonical r mem hit

theorem family_of_decodeWord {w : Word} {i : Instr} (h : decodeWord w = .ok i) : family w = family (encode i) := by
  rw [encode_of_decodeWord h, family_dropIgnored]

/-! ### The decoder reads every canonical encoding (R66) -/

theorem decodeWord_encode : ∀ i : Instr, decodeWord (encode i) = .ok i
  | .cls => Laws.RoundTrip.cls
  | .ret => Laws.RoundTrip.ret
  | .jp nnn => Laws.RoundTrip.jp nnn
  | .call nnn => Laws.RoundTrip.call nnn
  | .seImm x nn => Laws.RoundTrip.seImm x nn
  | .sneImm x nn => Laws.RoundTrip.sneImm x nn
  | .seReg x y => Laws.RoundTrip.seReg x y
  | .ldImm x nn => Laws.RoundTrip.ldImm x nn
  | .addImm x nn => Laws.RoundTrip.addImm x nn
  | .ldReg x y => Laws.RoundTrip.ldReg x y
  | .orReg x y => Laws.RoundTrip.orReg x y
  | .andReg x y => Laws.RoundTrip.andReg x y
  | .xorReg x y => Laws.RoundTrip.xorReg x y
  | .addReg x y => Laws.RoundTrip.addReg x y
  | .subReg x y => Laws.RoundTrip.subReg x y
  | .shrReg x y => Laws.RoundTrip.shrReg x y
  | .subnReg x y => Laws.RoundTrip.subnReg x y
  | .shlReg x y => Laws.RoundTrip.shlReg x y
  | .sneReg x y => Laws.RoundTrip.sneReg x y
  | .ldI nnn => Laws.RoundTrip.ldI nnn
  | .jpV0 nnn => Laws.RoundTrip.jpV0 nnn
  | .rnd x nn => Laws.RoundTrip.rnd x nn
  | .drw x y n => Laws.RoundTrip.drw x y n
  | .skp x => Laws.RoundTrip.skp x
  | .sknp x => Laws.RoundTrip.sknp x
  | .ldVxDt x => Laws.RoundTrip.ldVxDt x
  | .ldVxK x => Laws.RoundTrip.ldVxK x
  | .ldDtVx x => Laws.RoundTrip.ldDtVx x
  | .ldStVx x => Laws.RoundTrip.ldStVx x
  | .addI x => Laws.RoundTrip.addI x
  | .ldF x => Laws.RoundTrip.ldF x
  | .ldB x => Laws.RoundTrip.ldB x
  | .ldIndVx x => Laws.RoundTrip.ldIndVx x
  | .ldVxInd x => Laws.RoundTrip.ldVxInd x

/-! ### The words no row matches (R67, R70) -/

theorem family_cases (f : BitVec 4) : f = 0x0#4 ∨ f = 0x8#4 ∨ f = 0xE#4 ∨ f = 0xF#4 ∨
    f ∈ [0x1#4, 0x2#4, 0x3#4, 0x4#4, 0x5#4, 0x6#4, 0x7#4] ∨ f ∈ [0x9#4, 0xA#4, 0xB#4, 0xC#4, 0xD#4] := by
  revert f; decide

/-- What the rows ask for: in four families a value of the low byte or nibble, in the other twelve nothing else. -/
theorem noRowHits_iff (w : Word) : (∀ r ∈ opcodeRows, r.hits w = false) ↔
    (family w = 0x0#4 → fieldNN w ∉ [0xE0#8, 0xEE#8]) ∧
    family w ∉ [0x1#4, 0x2#4, 0x3#4, 0x4#4, 0x5#4, 0x6#4, 0x7#4] ∧
    (family w = 0x8#4 → fieldN w ∉ [0, 1, 2, 3, 4, 5, 6, 7, 14]) ∧
    family w ∉ [0x9#4, 0xA#4, 0xB#4, 0xC#4, 0xD#4] ∧
    (family w = 0xE#4 → fieldNN w ∉ [0x9E#8, 0xA1#8]) ∧
    (family w = 0xF#4 → fieldNN w ∉ [0x07#8, 0x0A#8, 0x15#8, 0x18#8, 0x1E#8, 0x29#8, 0x33#8, 0x55#8, 0x65#8]) := by
  simp (disch := decide) only [opcodeRows, opcodeRowsLow, opcodeRowsAlu, opcodeRowsMid, opcodeRowsHigh,
    List.forall_mem_append, List.forall_mem_cons, ← Bool.not_eq_true, hits_iff_family, hits_iff_fieldN,
    hits_iff_fieldNN, show fieldN 0x8001 = 1 from rfl]
  generalize fieldNN w = nn, fieldN w = n, family w = f
  simp [family, fieldN, fieldNN, imp_and, and_assoc]

/-! ### What the parameters take out (R68, R111) -/

theorem decodeFor_of_ok {p : Params} {w : Word} {i : Instr} (h : decodeWord w = .ok i) :
    decodeFor p w = if admits p w i then .ok i else .error (.unknownOpcode w) := by
  simp only [decodeFor, h]

theorem decodeFor_of_error {p : Params} {w : Word} {e : DecodeError} (h : decodeWord w = .error e) :
    decodeFor p w = .error e := by
  simp only [decodeFor, h]

theorem admits_encode (p : Params) (i : Instr) : admits p (encode i) i = i.wf p := by
  simp [admits]

/-- A word of family 8 with N = 0 is the register copy, which decodes with no bit ignored. -/
theorem decodeWord_ldReg_iff (w : Word) :
    (∃ x y, decodeWord w = .ok (.ldReg x y)) ↔ family w = 0x8#4 ∧ fieldN w = 0 := by
  constructor
  · rintro ⟨x, y, h⟩
    have canonical : packXY 0x8 x y 0x0 = w := encode_of_decodeWord h
    subst canonical
    exact ⟨family_packXY .., fieldN_packXY 0x8 x y 0⟩
  · intro copy
    have hit : (OpcodeRow.mk 0xF00F 0x8000 fun w => .ldReg (fieldX w) (fieldY w)).hits w = true :=
      (hits_iff_fieldN rfl).mpr copy
    exact ⟨_, _, decodeWord_of_hits (by simp [opcodeRows, opcodeRowsAlu]) hit⟩

/-- HAS_8XY0 takes out the register copy (R111). -/
theorem wf_eq_false_iff (p : Params) {w : Word} {i : Instr} (h : decodeWord w = .ok i) :
    i.wf p = false ↔ p.has8xy0 = false ∧ family w = 0x8#4 ∧ fieldN w = 0 := by
  rw [← decodeWord_ldReg_iff, h]
  cases i <;> simp [Instr.wf]

/-- STRICT_CANONICAL takes out the words with a non-zero ignored bit (R68). -/
theorem encode_ne_iff {w : Word} {i : Instr} (h : decodeWord w = .ok i) :
    encode i ≠ w ↔ family w = 0x0#4 ∧ fieldX w ≠ 0 ∨ (family w = 0x5#4 ∨ family w = 0x9#4) ∧ fieldN w ≠ 0 := by
  have same := family_of_decodeWord h
  rw [encode_of_decodeWord h, same]
  cases i with
  | cls | ret => simp [dropIgnored, encode, and_family_byte_eq_self_iff w, family]
  | seReg x y | sneReg x y => simp [dropIgnored, encode, and_not_fieldN_eq_self_iff w]
  | _ => simp [dropIgnored, encode]

theorem admits_eq_false_iff (p : Params) {w : Word} {i : Instr} (h : decodeWord w = .ok i) :
    admits p w i = false ↔ (p.has8xy0 = false ∧ family w = 0x8#4 ∧ fieldN w = 0) ∨
      (p.strictCanonical = true ∧
        (family w = 0x0#4 ∧ fieldX w ≠ 0 ∨ (family w = 0x5#4 ∨ family w = 0x9#4) ∧ fieldN w ≠ 0)) := by
  rw [← wf_eq_false_iff p h, ← encode_ne_iff h]
  simp only [admits, Bool.and_eq_false_iff, Bool.or_eq_false_iff, Bool.not_eq_false', beq_eq_false_iff_ne]

end Sys2Proof

namespace Sys2Proof.Machine

/-! ### The step that fetches (R43, R60) -/

theorem State.WordAtPc.eq_fetchWord {s : State} {w : Word} (h : s.WordAtPc w) : w = s.fetchWord :=
  BitVec.eq_of_toNat_eq (h.trans s.wordAtPc_fetchWord.symm)

theorem State.Fetches.fetchBlocked_popAgenda {s : State} (h : s.Fetches) : s.popAgenda.fetchBlocked = false :=
  s.fetchBlocked_eq_false_iff.mpr ⟨h.inside, h.aligned⟩

theorem execTurn_of_running {s : State} (runnable : s.exec = .runnable) (running : s.run = .running) :
    execTurn s = runInstruction s := by
  simp only [execTurn, runnable, execStep, running]

theorem State.Fetches.step_eq {s : State} (h : s.Fetches) : step s = runInstruction s.popAgenda :=
  (step_eq_makeMove h.turn).trans (execTurn_of_running (s := s.popAgenda) h.runnable h.running)

theorem runInstruction_of_ok {s : State} {i : Instr} (inside : s.fetchBlocked = false)
    (decoded : decodeFor s.params s.fetchWord = .ok i) : runInstruction s = exec i s.fetched := by
  simp [runInstruction, inside, decoded]

theorem runInstruction_of_error {s : State} {e : DecodeError} (inside : s.fetchBlocked = false)
    (decoded : decodeFor s.params s.fetchWord = .error e) : runInstruction s = .next (unknownStep s) := by
  simp [runInstruction, inside, decoded]

/-! ### The statements of 30_encoding.md -/

/-- Settles O1: the decoder reads the encoding (`decodeWord_encode`), and of the parameters only HAS_8XY0 takes a
canonical encoding out (`admits_encode`). -/
theorem decodingAnEncodingGivesTheInstruction : Obligations.DecodingAnEncodingGivesTheInstruction := by
  unfold Obligations.DecodingAnEncodingGivesTheInstruction
  intro p i
  rw [decodeFor_of_ok (decodeWord_encode i), admits_encode]
  exact ⟨fun has => if_pos has, fun lacks => if_neg (by simp [lacks])⟩

/-- Settles O2: the encoding is the word without the ignored bits (`encode_of_decodeWord`). -/
theorem encodingADecodedWordGivesItsCanonicalForm : Obligations.EncodingADecodedWordGivesItsCanonicalForm := by
  unfold Obligations.EncodingADecodedWordGivesItsCanonicalForm
  intro w i h
  rw [encode_of_decodeWord h]
  unfold dropIgnored
  split
  · exact .inr (.inl ⟨.inl rfl, rfl⟩)
  · exact .inr (.inl ⟨.inr rfl, rfl⟩)
  · exact .inr (.inr ⟨⟨_, _, .inl rfl⟩, rfl⟩)
  · exact .inr (.inr ⟨⟨_, _, .inr rfl⟩, rfl⟩)
  · exact .inl rfl

/-- Settles O3: in each of the four keyed families the table lists what the rows do not (`noRowHits_iff`). -/
theorem unknownWordsAreExactlyThese : Obligations.UnknownWordsAreExactlyThese := by
  unfold Obligations.UnknownWordsAreExactlyThese
  intro w
  rw [decodeWord_error, and_iff_right rfl, noRowHits_iff]
  generalize fieldNN w = nn, fieldN w = n, family w = f
  obtain rfl | rfl | rfl | rfl | whole | whole := family_cases f
  · simp
  · have others : n ∉ [0, 1, 2, 3, 4, 5, 6, 7, 14] ↔
        n = 8 ∨ n = 9 ∨ n = 10 ∨ n = 11 ∨ n = 12 ∨ n = 13 ∨ n = 15 := by revert n; decide
    simpa using others
  · simp
  · simp
  all_goals
    have other : f ≠ 0x0#4 ∧ f ≠ 0x8#4 ∧ f ≠ 0xE#4 ∧ f ≠ 0xF#4 := by revert f; decide
    simp [whole, other]

/-- Settles O4: where the word decodes, the machine admits its instruction unless one of the two clauses holds
(`admits_eq_false_iff`); where it does not, both answers are the same error. -/
theorem parametersOnlyTakeWordsOutOfTheDecoder : Obligations.ParametersOnlyTakeWordsOutOfTheDecoder := by
  unfold Obligations.ParametersOnlyTakeWordsOutOfTheDecoder
  intro p w
  cases h : decodeWord w with
  | ok i =>
    rw [decodeFor_of_ok h]
    simp only [← admits_eq_false_iff p h]
    cases admits p w i <;> rfl
  | error e =>
    obtain ⟨rfl, -⟩ := decodeWord_error.mp h
    rw [decodeFor_of_error h, ite_self]

/-- Settles O5: the words are closed, and the decoder computes. -/
theorem sampleWordsDecode : Obligations.SampleWordsDecode := by
  unfold Obligations.SampleWordsDecode
  decide

/-- Settles O6: the step is the fetch (`State.Fetches.step_eq`), which reads the word at PC and runs its instruction
in the state with PC advanced. -/
theorem stepRunsTheFetchedInstruction : Obligations.StepRunsTheFetchedInstruction := by
  unfold Obligations.StepRunsTheFetchedInstruction
  intro s w i fetches word decoded
  obtain rfl := word.eq_fetchWord
  exact fetches.step_eq.trans (runInstruction_of_ok fetches.fetchBlocked_popAgenda decoded)

/-- Settles O7: the same fetch answers `unknownStep`, the report in the state with PC advanced. -/
theorem unknownOpcodeIsAReportedNoOperation : Obligations.UnknownOpcodeIsAReportedNoOperation := by
  unfold Obligations.UnknownOpcodeIsAReportedNoOperation
  intro s w e fetches word decoded
  obtain rfl := word.eq_fetchWord
  exact fetches.step_eq.trans (runInstruction_of_error fetches.fetchBlocked_popAgenda decoded)

end Sys2Proof.Machine
end

section
/-! SUPPORT. The statements of 40_control_transfer.md, and what they rest on: the decoder on the words of RET and of the
register skips with any value in the ignored field, what CALL and RET answer on either side of the stack's bounds, and
that a skip instruction is `State.skipIf` of its condition (`exec_eq_skipIf`). -/

namespace Sys2Proof

/-! ### The words with an ignored field (R68) -/

theorem decodeWord_ret (x : RegIx) : decodeWord (packXI 0x0 x 0xEE) = .ok .ret := by
  have hit : (OpcodeRow.mk 0xF0FF 0x00EE fun _ => .ret).hits (packXI 0x0 x 0xEE) = true :=
    (hits_iff_fieldNN rfl).mpr ⟨family_packXI .., fieldNN_packXI ..⟩
  exact decodeWord_of_hits (by simp [opcodeRows, opcodeRowsLow]) hit

theorem decodeWord_of_family {p w : Word} {b : Word → Instr} (row : OpcodeRow.mk 0xF000 p b ∈ opcodeRows)
    (within : p &&& 0xF000#16 = p) (same : family w = family p) : decodeWord w = .ok (b w) :=
  decodeWord_of_hits row ((hits_iff_family within).mpr same)

theorem decodeWord_seReg (x y : RegIx) (n : BitVec 4) : decodeWord (packXY 0x5 x y n) = .ok (.seReg x y) := by
  have row : OpcodeRow.mk 0xF000 0x5000 (fun w => .seReg (fieldX w) (fieldY w)) ∈ opcodeRows := by
    simp [opcodeRows, opcodeRowsLow]
  simpa using decodeWord_of_family row rfl (family_packXY 0x5 x y n)

theorem decodeWord_sneReg (x y : RegIx) (n : BitVec 4) : decodeWord (packXY 0x9 x y n) = .ok (.sneReg x y) := by
  have row : OpcodeRow.mk 0xF000 0x9000 (fun w => .sneReg (fieldX w) (fieldY w)) ∈ opcodeRows := by
    simp [opcodeRows, opcodeRowsMid]
  simpa using decodeWord_of_family row rfl (family_packXY 0x9 x y n)

end Sys2Proof

namespace Sys2Proof.Machine

/-! ### The target of JP V0 (R87) -/

theorem State.indexedTarget_toNat (s : State) (nnn : Addr) :
    (s.indexedTarget nnn).toNat = (nnn.toNat + (s.readV 0).toNat) % 65536 := by
  have offset : (zextByte (s.readV 0)).toNat = (s.readV 0).toNat :=
    BitVec.toNat_setWidth_of_le (by decide)
  rw [State.indexedTarget, BitVec.toNat_add, zextAddr_toNat, offset]

/-! ### CALL and RET (R80, R82) -/

theorem exec_call_of_push {s t : State} (nnn : Addr) (pushed : s.push s.pc = some t) :
    exec (.call nnn) s = .next (t.setPc (zextAddr nnn)) := by
  simp only [exec, execCall, pushed]

theorem exec_call_of_full {s : State} (nnn : Addr) (full : s.stackFull) :
    exec (.call nnn) s = .next (s.halt .stackOverflow) := by
  simp only [exec, execCall, State.push_full s.pc full]

theorem exec_ret_of_pop {s t : State} {a : Word} (popped : s.pop = some (a, t)) : exec .ret s = .next (t.setPc a) := by
  simp only [exec, execRet, popped]

theorem exec_ret_of_empty {s : State} (empty : s.sp.val = 0) : exec .ret s = .next (s.halt .stackUnderflow) := by
  simp only [exec, execRet, State.pop_empty empty]

/-! ### Skips (R83 to R86, R88, R140, R141) -/

/-- The key numbered by the low four bits of V[X] (R140). -/
theorem State.keyDown_keyOperand (s : State) (x : RegIx) :
    s.keyDown (s.keyOperand x) = s.key[(s.readV x).toNat % 16] := by
  have low : (s.keyOperand x).val = (s.readV x).toNat % 16 := by
    simp [State.keyOperand]
  simp only [State.keyDown, low]

/-- A skip instruction does what the skip law does with its condition, and nothing else. -/
theorem exec_eq_skipIf {s : State} {i : Instr} {holds : Bool} (cond : s.skipCondition i = some holds) :
    exec i s = .next (s.skipIf holds) := by
  cases i with
  | seImm | seReg => cases cond; rfl
  | sneImm | sneReg => cases cond; simp only [exec, execSneImm, execSneReg, bne, beq_eq_decide, decide_not]
  | skp | sknp => cases cond; simp only [exec, execSkp, execSknp, State.keyDown_keyOperand]
  | _ => cases cond

/-- The same, said of a condition that is a proposition, with the frame. -/
theorem exec_skip {s : State} {i : Instr} {c : Prop} [Decidable c] (cond : s.skipCondition i = some (decide c)) :
    ∃ t, exec i s = .next t ∧ t.pc = (if c then s.pc + 2 else s.pc) ∧ Footprint.Frames { pc := True } s t := by
  refine ⟨_, exec_eq_skipIf cond, ?_, (frames_skipIf s _).mono { pc := fun _ => trivial }⟩
  rw [State.skipIf_eq]
  simp only [decide_eq_true_eq]

/-- The fetch keeps the registers and the keys a skip looks at. -/
theorem State.skipCondition_fetched (s : State) (i : Instr) :
    s.popAgenda.fetched.skipCondition i = s.skipCondition i := rfl

/-- A skip after a fetch: the two advances of PC make four (R60, R88). -/
theorem State.skipIf_fetched (s : State) (holds : Bool) :
    s.popAgenda.fetched.skipIf holds =
      { s with agenda := s.agenda.tail, pc := if holds then s.pc + 4 else s.pc + 2 } := by
  have four : s.pc + 2 + 2 = s.pc + 4 := BitVec.add_assoc ..
  rw [State.skipIf_eq, ← four]
  rfl

theorem State.fetchBlocked_of_pc_gt {s : State} (beyond : s.pc.toNat > 0x0FFE) : s.fetchBlocked = true := by
  simp [State.fetchBlocked, beyond]

/-! ### The statements of 40_control_transfer.md -/

/-- Settles O9: the step runs the skip after the fetch (`stepRunsTheFetchedInstruction`), and the skip is `skipIf` of
its condition (`exec_eq_skipIf`). -/
theorem skipLaw : Obligations.SkipLaw := by
  unfold Obligations.SkipLaw
  intro s w i holds fetches word decoded cond
  have ran : step s = .next (s.popAgenda.fetched.skipIf holds) :=
    (stepRunsTheFetchedInstruction s w i fetches word decoded).trans
      (exec_eq_skipIf ((s.skipCondition_fetched i).trans cond))
  refine ⟨_, ran, s.skipIf_fetched holds, fun taken last => ?_⟩
  have beyond : (s.popAgenda.fetched.skipIf holds).pc.toNat > 0x0FFE := by
    subst taken
    rw [State.skipIf_fetched]
    obtain at_ffc | at_ffe := last
    · simp [at_ffc]
    · simp [at_ffe]
  exact ⟨beyond, State.fetchBlocked_of_pc_gt beyond⟩

/-- Settles O37: the meaning of JP is one write of PC. -/
theorem jumpLoadsItsTarget : Obligations.JumpLoadsItsTarget := by
  unfold Obligations.JumpLoadsItsTarget
  intro s nnn
  exact ⟨decodeWord_encode (.jp nnn), s.setPc (zextAddr nnn), rfl, zextAddr_toNat nnn, frames_setPc s _⟩

/-- Settles O38: the meaning of JP V0 is one write of PC, of the sum `State.indexedTarget`. -/
theorem indexedJumpAddsV0 : Obligations.IndexedJumpAddsV0 := by
  unfold Obligations.IndexedJumpAddsV0
  intro s nnn
  exact ⟨decodeWord_encode (.jpV0 nnn), s.setPc (s.indexedTarget nnn), rfl, s.indexedTarget_toNat nnn,
    s.indexedTarget_le nnn, frames_setPc s _⟩

/-- Settles O39: with room the push writes one cell and SP (`State.push_room`, `frames_push`) before PC is written; on
the full stack CALL halts (`exec_call_of_full`). -/
theorem callPushesTheAdvancedPc : Obligations.CallPushesTheAdvancedPc := by
  unfold Obligations.CallPushesTheAdvancedPc
  intro s nnn
  refine ⟨decodeWord_encode (.call nnn), fun room => ?_, fun full => ?_⟩
  · obtain ⟨_, pushed⟩ := State.push_room s.pc room
    refine ⟨_, exec_call_of_push nnn pushed, zextAddr_toNat nnn, rfl, fun k top => ?_, ?_⟩
    · simp [top]
    · exact .trans ((frames_push pushed).mono { sp := id, stk := fun _ => id })
        ((frames_setPc _ _).mono { pc := id })
  · exact ⟨_, exec_call_of_full nnn full, rfl, rfl⟩

/-- Settles O40: a pop of a stack that is not empty writes SP alone (`State.pop_nonempty`) before PC is written; on the
empty stack RET halts (`exec_ret_of_empty`). -/
theorem returnPopsTheTopEntry : Obligations.ReturnPopsTheTopEntry := by
  unfold Obligations.ReturnPopsTheTopEntry
  intro s
  refine ⟨decodeWord_ret, fun k top => ?_, fun empty => ⟨_, exec_ret_of_empty empty, rfl, rfl⟩⟩
  have below : s.sp.val - 1 = k.val := by omega
  refine ⟨_, exec_ret_of_pop (State.pop_nonempty (by omega)), below, ?_, ?_⟩
  · simp only [State.setPc_pc, below]
  · exact .trans ((frames_sp s _).mono { sp := id }) ((frames_setPc _ _).mono { pc := id })

/-- Settles O41: each of the four is a skip with its comparison as condition (`exec_skip`). -/
theorem registerSkips : Obligations.RegisterSkips := by
  unfold Obligations.RegisterSkips
  intro s x y nn
  exact ⟨decodeWord_encode (.seImm x nn), decodeWord_encode (.sneImm x nn),
    fun n => ⟨decodeWord_seReg x y n, decodeWord_sneReg x y n⟩,
    exec_skip rfl, exec_skip rfl, exec_skip rfl, exec_skip rfl⟩

end Sys2Proof.Machine
end

section
/-! SUPPORT. The statements of 41_alu.md, and what they rest on: each flag computation and each result as a number, and
the three ways an instruction of the family writes: a register alone (`exec_writesRegister`), a result and a flag
(`exec_writesResultAndFlag`), a logic result (`exec_writesLogic`). -/

namespace Sys2Proof.Machine

/-! ### Flags and shifted values as numbers (R100, R106 to R110) -/

theorem toNat_flagByte_decide (p : Prop) [Decidable p] : (flagByte (decide p)).toNat = if p then 1 else 0 := by
  by_cases h : p <;> simp [flagByte, h]

theorem toNat_flagByte_carryOut (a b : Byte) :
    (flagByte (carryOut a b)).toNat = if a.toNat + b.toNat > 255 then 1 else 0 :=
  toNat_flagByte_decide _

theorem toNat_flagByte_noBorrow (a b : Byte) :
    (flagByte (noBorrow a b)).toNat = if a.toNat ≥ b.toNat then 1 else 0 :=
  toNat_flagByte_decide _

theorem toNat_flagByte_getLsbD (b : Byte) (k : Nat) : (flagByte (b.getLsbD k)).toNat = b.toNat / 2 ^ k % 2 := by
  have bit : b.getLsbD k = decide (b.toNat / 2 ^ k % 2 = 1) := Nat.testBit_eq_decide_div_mod_eq
  rw [bit, toNat_flagByte_decide]
  split <;> omega

theorem toNat_flagByte_lowBit (b : Byte) : (flagByte (lowBit b)).toNat = b.toNat % 2 :=
  (toNat_flagByte_getLsbD b 0).trans (by simp)

theorem toNat_flagByte_highBit (b : Byte) : (flagByte (highBit b)).toNat = b.toNat / 128 := by
  have lt := b.isLt
  have bit : (flagByte (highBit b)).toNat = b.toNat / 128 % 2 := toNat_flagByte_getLsbD b 7
  omega

theorem toNat_sub_byte (a b : Byte) : (a - b).toNat = (a.toNat + 256 - b.toNat) % 256 := by
  have lt := b.isLt
  rw [BitVec.toNat_sub]
  omega

theorem toNat_ushiftRight_one (b : Byte) : (b >>> 1).toNat = b.toNat / 2 := by
  simp [Nat.shiftRight_eq_div_pow]

theorem toNat_shiftLeft_one (b : Byte) : (b <<< 1).toNat = b.toNat * 2 % 256 := by
  simp [Nat.shiftLeft_eq]

/-- The model's shift source is the one the statements speak of (R108). -/
theorem State.shiftSource_eq (s : State) (x y : RegIx) : s.shiftSource x y = ShiftSource s x y := by
  unfold ShiftSource
  split
  · next base => simp only [State.shiftSource, base]
  · next extended => exact State.shiftSource_extended extended x y

/-! ### What an instruction of the family writes (R100, R103) -/

section Writes

variable {i : Instr} {s : State} {x : RegIx} {b : Byte} {f : Bool}

/-- FLAG_WRITE_ORDER decides only where the two writes meet, in VF (R100). -/
theorem State.writesResultAndFlag {result flag : Nat} (hb : b.toNat = result) (hf : (flagByte f).toNat = flag) :
    WritesResultAndFlag s (s.writeResultFlag x b f) x result flag := by
  subst hb hf
  refine ⟨fun other => ?_, fun same order => ?_, fun same order => ?_⟩
  · rw [State.readV_writeResultFlag_result s b f other, State.readV_writeResultFlag_vf s b f other]
    exact ⟨rfl, rfl⟩
  · simp [State.readV_writeResultFlag, order, same]
  · simp [State.readV_writeResultFlag, order, same]

theorem State.writesLogic : WritesLogic s (s.writeLogic x b) x b := by
  refine ⟨fun base => ?_, fun extended => ?_⟩
  · rw [s.writeLogic_base x b base]
    exact State.writesResultAndFlag rfl rfl
  · rw [s.writeLogic_extended x b extended, State.readV_setV_same]

/-- An instruction that is one write of V[x]. -/
theorem exec_writesRegister (meaning : exec i s = .next (s.setV x b)) :
    ∃ t, exec i s = .next t ∧ t.readV x = b ∧ Footprint.Frames { v := fun r => r = x } s t :=
  ⟨_, meaning, s.readV_setV_same x b, frames_setV s x b⟩

/-- An instruction that is one write of a result and a flag, with both given as numbers. -/
theorem exec_writesResultAndFlag {result flag : Nat} (meaning : exec i s = .next (s.writeResultFlag x b f))
    (hb : b.toNat = result) (hf : (flagByte f).toNat = flag) :
    ∃ t, exec i s = .next t ∧ WritesResultAndFlag s t x result flag ∧
      Footprint.Frames { v := fun r => r = x ∨ r = vf } s t :=
  ⟨_, meaning, State.writesResultAndFlag hb hf, frames_writeResultFlag s x b f⟩

/-- An instruction that is one write of a logic result. -/
theorem exec_writesLogic (meaning : exec i s = .next (s.writeLogic x b)) :
    ∃ t, exec i s = .next t ∧ WritesLogic s t x b ∧
      Footprint.Frames { v := fun r => r = x ∨ (s.variant = .base ∧ r = vf) } s t :=
  ⟨_, meaning, State.writesLogic, frames_writeLogic s x b⟩

end Writes

theorem exec_shrReg (s : State) (x y : RegIx) : exec (.shrReg x y) s =
    .next (s.writeResultFlag x (ShiftSource s x y >>> 1) (lowBit (ShiftSource s x y))) := by
  rw [← s.shiftSource_eq x y]; rfl

theorem exec_shlReg (s : State) (x y : RegIx) : exec (.shlReg x y) s =
    .next (s.writeResultFlag x (ShiftSource s x y <<< 1) (highBit (ShiftSource s x y))) := by
  rw [← s.shiftSource_eq x y]; rfl

/-! ### The statements of 41_alu.md -/

/-- Settles O43: each of the three is one write of V[X] (`exec_writesRegister`), and byte addition wraps at 256. -/
theorem loadsAndAddImmediateWriteNoFlag : Obligations.LoadsAndAddImmediateWriteNoFlag := by
  unfold Obligations.LoadsAndAddImmediateWriteNoFlag
  intro s x y nn
  obtain ⟨t, ran, sum, frame⟩ := exec_writesRegister (i := .addImm x nn) (s := s) rfl
  exact ⟨decodeWord_encode (.ldImm x nn), decodeWord_encode (.addImm x nn), decodeWord_encode (.ldReg x y),
    exec_writesRegister rfl, ⟨t, ran, sum ▸ BitVec.toNat_add _ _, frame⟩, exec_writesRegister rfl⟩

/-- Settles O44: each of the three is one write of a logic result (`exec_writesLogic`). -/
theorem logicResetsTheFlagInBaseOnly : Obligations.LogicResetsTheFlagInBaseOnly := by
  unfold Obligations.LogicResetsTheFlagInBaseOnly
  intro s x y
  exact ⟨decodeWord_encode (.orReg x y), decodeWord_encode (.andReg x y), decodeWord_encode (.xorReg x y),
    exec_writesLogic rfl, exec_writesLogic rfl, exec_writesLogic rfl⟩

/-- Settles O45: a write of the wrapping sum and of the carry (`exec_writesResultAndFlag`). -/
theorem addSetsTheCarry : Obligations.AddSetsTheCarry := by
  unfold Obligations.AddSetsTheCarry
  intro s x y
  exact ⟨decodeWord_encode (.addReg x y),
    exec_writesResultAndFlag rfl (BitVec.toNat_add _ _) (toNat_flagByte_carryOut _ _)⟩

/-- Settles O46: the two write the wrapping difference and the inverse of borrow, with the operands exchanged. -/
theorem subtractionsSetTheInverseOfBorrow : Obligations.SubtractionsSetTheInverseOfBorrow := by
  unfold Obligations.SubtractionsSetTheInverseOfBorrow
  intro s x y
  exact ⟨decodeWord_encode (.subReg x y), decodeWord_encode (.subnReg x y),
    exec_writesResultAndFlag rfl (toNat_sub_byte _ _) (toNat_flagByte_noBorrow _ _),
    exec_writesResultAndFlag rfl (toNat_sub_byte _ _) (toNat_flagByte_noBorrow _ _)⟩

/-- Settles O47: the two write the shifted source and the bit shifted out of it (`exec_shrReg`, `exec_shlReg`). -/
theorem shiftsTakeTheirSourceByVariant : Obligations.ShiftsTakeTheirSourceByVariant := by
  unfold Obligations.ShiftsTakeTheirSourceByVariant
  intro s x y
  exact ⟨decodeWord_encode (.shrReg x y), decodeWord_encode (.shlReg x y),
    exec_writesResultAndFlag (exec_shrReg s x y) (toNat_ushiftRight_one _) (toNat_flagByte_lowBit _),
    exec_writesResultAndFlag (exec_shlReg s x y) (toNat_shiftLeft_one _) (toNat_flagByte_highBit _)⟩

end Sys2Proof.Machine
end

section
/-! SUPPORT. The statements of 42_index_random.md, and what they rest on: the operands of the index instructions as
numbers, an instruction that is one write of I (`exec_writesIndex`), and that a masked byte has no bit outside its
mask. -/

namespace Sys2Proof.Machine

/-! ### The operands as numbers (R121, R122) -/

theorem zextByte_toNat (b : Byte) : (zextByte b).toNat = b.toNat :=
  BitVec.toNat_setWidth_of_le (by decide)

theorem add_zextByte_toNat (a : Word) (b : Byte) : (a + zextByte b).toNat = (a.toNat + b.toNat) % 65536 := by
  rw [BitVec.toNat_add, zextByte_toNat]

/-- Five times a byte is at most 1275, so the product never wraps (R122). -/
theorem glyphAddress_toNat (code : Byte) : (glyphAddress code).toNat = 5 * code.toNat := by
  have lt := code.isLt
  have product : (glyphAddress code).toNat = 5 * code.toNat % 65536 := by
    rw [glyphAddress, BitVec.toNat_mul, zextByte_toNat]; rfl
  omega

/-- The mask of Base keeps the low four bits; in the extended variants `State.fontCode_extended` says there is none. -/
theorem State.fontCode_base_toNat {s : State} (base : s.variant = .base) (x : RegIx) :
    (s.fontCode x).toNat = (s.readV x).toNat % 16 := by
  simp only [State.fontCode, base, BitVec.toNat_and]
  exact Nat.and_two_pow_sub_one_eq_mod _ 4

/-! ### A masked byte (R123) -/

theorem and_and_not_self (b mask : Byte) : b &&& mask &&& ~~~mask = 0 := by
  rw [BitVec.and_assoc, BitVec.and_not_self]
  exact BitVec.and_zero

/-! ### One write of I (R120, R121) -/

/-- An instruction that is one write of I, with the value given as a number. -/
theorem exec_writesIndex {i : Instr} {s : State} {a : Word} {value : Nat} (meaning : exec i s = .next (s.setI a))
    (ha : a.toNat = value) :
    ∃ t, exec i s = .next t ∧ t.i.toNat = value ∧ Footprint.Frames { i := True } s t :=
  ⟨_, meaning, ha, frames_setI s a⟩

/-! ### The statements of 42_index_random.md -/

/-- Settles O48: each of the two is one write of I (`exec_writesIndex`), and word addition wraps at 65536. -/
theorem indexLoadAndAdd : Obligations.IndexLoadAndAdd := by
  unfold Obligations.IndexLoadAndAdd
  intro s x nnn
  exact ⟨decodeWord_encode (.ldI nnn), decodeWord_encode (.addI x),
    exec_writesIndex rfl (zextAddr_toNat nnn), exec_writesIndex rfl (add_zextByte_toNat s.i (s.readV x))⟩

/-- Settles O49: one write of I, of five times the font code (`glyphAddress_toNat`), which VARIANT masks or not. -/
theorem fontAddressIsFiveTimesTheCode : Obligations.FontAddressIsFiveTimesTheCode := by
  unfold Obligations.FontAddressIsFiveTimesTheCode
  intro s x
  obtain ⟨t, ran, address, frame⟩ := exec_writesIndex (i := .ldF x) (s := s) rfl (glyphAddress_toNat (s.fontCode x))
  refine ⟨decodeWord_encode (.ldF x), t, ran, fun base => ?_, fun extended => ?_, frame⟩
  · rw [address, State.fontCode_base_toNat base]
  · rw [address, State.fontCode_extended extended]

/-- Settles O50: one draw and one write of V[X], of the drawn byte under the mask NN; nothing is asked of the byte. -/
theorem randomIsMaskedByItsImmediate : Obligations.RandomIsMaskedByItsImmediate := by
  unfold Obligations.RandomIsMaskedByItsImmediate
  intro s x nn
  have sample : (s.drawByte.2.setV x (s.drawByte.1 &&& nn)).readV x = Config.freeByte s.draws &&& nn :=
    State.readV_setV_same ..
  refine ⟨decodeWord_encode (.rnd x nn), _, rfl, sample, ?_, rfl, frames_drawByte s x _⟩
  rw [sample, and_and_not_self]

end Sys2Proof.Machine
end

section
/-! SUPPORT. The statements of 43_display.md, and what they rest on: DRW as one sprite drawn at the bytes CheckData lets
through, every cell and the flag after it, and that the cells it changes are exactly those under a 1 bit of the sprite
(`State.draw_changes_iff`), from which R132 follows. -/

namespace Sys2Proof.Machine

/-! ### One draw (R131) -/

theorem exec_drw_of_inMemory {s : State} {n : Fin 16} (inside : s.InMemory n.val) (x y : RegIx) :
    exec (.drw x y n) s = .next (s.draw x y n.val) :=
  congrArg Host.Outcome.next (State.withData_of_inMemory inside _)

section Draw
variable (s : State) (x y : RegIx)

theorem State.draw_cell_covered {n r c : Nat} (hn : n ≤ 32) (hr : r < n) (hc : c < 8) :
    (s.draw x y n).disp.cell (spriteRow (s.readV y) r) (spriteColumn (s.readV x) c) =
      (s.disp.cell (spriteRow (s.readV y) r) (spriteColumn (s.readV x) c) ^^ s.spriteBit r c) := by
  have drawn := drawSprite_at s.disp (s.readV x).toNat (s.readV y).toNat (s.readBlock n) (by simpa) (r := r)
    (by simpa) hc
  rw [State.getElem_readBlock] at drawn
  exact drawn

theorem State.draw_cell_uncovered {n : Nat} {y' : Fin 32} {x' : Fin 64}
    (h : ∀ r c, r < n → c < 8 → ¬ (y' = spriteRow (s.readV y) r ∧ x' = spriteColumn (s.readV x) c)) :
    (s.draw x y n).disp.cell y' x' = s.disp.cell y' x' :=
  drawSprite_other s.disp _ _ (s.readBlock n) y' x' fun r c hr => h r c (by simpa using hr)

/-! ### The collision flag (R131) -/

theorem flagByte_eq_one_iff (f : Bool) : flagByte f = 1 ↔ f = true := by
  cases f <;> decide

theorem State.draw_flag (n : Nat) : (s.draw x y n).readV vf =
    flagByte (drawSprite s.disp (s.readV x).toNat (s.readV y).toNat (s.readBlock n)).2 :=
  State.readV_setV_same ..

theorem State.draw_flag_zero_or_one (n : Nat) :
    (s.draw x y n).readV vf = 0 ∨ (s.draw x y n).readV vf = 1 := by
  rw [State.draw_flag]
  cases (drawSprite s.disp (s.readV x).toNat (s.readV y).toNat (s.readBlock n)).2
  · exact .inl rfl
  · exact .inr rfl

/-- The flag is 1 exactly when a set cell met a set bit. -/
theorem State.draw_flag_eq_one_iff {n : Nat} (hn : n ≤ 32) : (s.draw x y n).readV vf = 1 ↔
    ∃ r c, r < n ∧ c < 8 ∧ s.disp.cell (spriteRow (s.readV y) r) (spriteColumn (s.readV x) c) = true ∧
      s.spriteBit r c = true := by
  rw [State.draw_flag, flagByte_eq_one_iff, drawSprite_hit _ _ _ _ (by simpa)]
  simp only [State.getElem_readBlock, State.length_readBlock, exists_prop]
  rfl

end Draw

/-! ### The cells under the sprite's 1 bits (R132) -/

/-- The places, row and column, of the 1 bits in the first n rows of the sprite at I. -/
def State.spriteOnes (s : State) (n : Nat) : Finset (Nat × Nat) :=
  (Finset.range n ×ˢ Finset.range 8).filter fun q => s.spriteBit q.1 q.2 = true

theorem State.mem_spriteOnes {s : State} {n : Nat} {q : Nat × Nat} :
    q ∈ s.spriteOnes n ↔ q.1 < n ∧ q.2 < 8 ∧ s.spriteBit q.1 q.2 = true := by
  simp [State.spriteOnes, and_assoc]

/-- The cell on which the place `q` of a sprite drawn at (x0, y0) falls. -/
def spriteCell (x0 y0 : Byte) (q : Nat × Nat) : Fin 32 × Fin 64 := (spriteRow y0 q.1, spriteColumn x0 q.2)

/-- No two places of a sprite fall on one cell (R131 (f)). -/
theorem spriteCell_injOn (s : State) (x0 y0 : Byte) {n : Nat} (hn : n ≤ 32) :
    Set.InjOn (spriteCell x0 y0) (s.spriteOnes n) := by
  intro p hp q hq same
  obtain ⟨pr, pc, -⟩ := State.mem_spriteOnes.mp hp
  obtain ⟨qr, qc, -⟩ := State.mem_spriteOnes.mp hq
  obtain ⟨row, column⟩ := Prod.mk.inj same
  exact Prod.ext (row_inj (by omega) (by omega) row) (column_inj (by omega) (by omega) column)

section Changes
variable (s : State) (x y : RegIx)

/-- Drawing writes neither MEM nor I, so the sprite stays the same. -/
@[simp] theorem State.spriteOnes_draw (n : Nat) : (s.draw x y n).spriteOnes n = s.spriteOnes n := rfl

/-- A draw changes a cell exactly when a 1 bit of the sprite falls on it. -/
theorem State.draw_changes_iff {n : Nat} (hn : n ≤ 32) (y' : Fin 32) (x' : Fin 64) :
    (s.draw x y n).disp.cell y' x' ≠ s.disp.cell y' x' ↔
      (y', x') ∈ (s.spriteOnes n).image (spriteCell (s.readV x) (s.readV y)) := by
  simp only [Finset.mem_image, State.mem_spriteOnes]
  constructor
  · intro changed
    by_contra off
    refine changed ?_
    by_cases covered : ∃ r c, r < n ∧ c < 8 ∧ y' = spriteRow (s.readV y) r ∧ x' = spriteColumn (s.readV x) c
    · obtain ⟨r, c, hr, hc, rfl, rfl⟩ := covered
      have zero : s.spriteBit r c = false := Bool.eq_false_iff.mpr fun one => off ⟨(r, c), ⟨hr, hc, one⟩, rfl⟩
      rw [s.draw_cell_covered x y hn hr hc, zero, Bool.xor_false]
    · exact s.draw_cell_uncovered x y fun r c hr hc at_rc => covered ⟨r, c, hr, hc, at_rc⟩
  · rintro ⟨⟨r, c⟩, ⟨hr, hc, one⟩, at_rc⟩
    obtain ⟨rfl, rfl⟩ := Prod.mk.inj at_rc
    rw [s.draw_cell_covered x y hn hr hc, one, Bool.xor_true]
    exact Bool.not_ne_self _

/-- The flag is 1 exactly when the draw turned a cell off. -/
theorem State.draw_flag_eq_one_iff_turned_off {n : Nat} (hn : n ≤ 32) : (s.draw x y n).readV vf = 1 ↔
    ∃ y' x', s.disp.cell y' x' = true ∧ (s.draw x y n).disp.cell y' x' = false := by
  rw [s.draw_flag_eq_one_iff x y hn]
  constructor
  · rintro ⟨r, c, hr, hc, set, one⟩
    exact ⟨_, _, set, by rw [s.draw_cell_covered x y hn hr hc, set, one]; rfl⟩
  · rintro ⟨y', x', set, off⟩
    have changed := (s.draw_changes_iff x y hn y' x').mp (by rw [set, off]; decide)
    obtain ⟨⟨r, c⟩, bit, at_rc⟩ := Finset.mem_image.mp changed
    obtain ⟨hr, hc, one⟩ := State.mem_spriteOnes.mp bit
    obtain ⟨rfl, rfl⟩ := Prod.mk.inj at_rc
    exact ⟨r, c, hr, hc, set, one⟩

/-- The second draw at the same place changes the cells the first one changed, and so restores them all. -/
theorem State.draw_draw_disp {n : Nat} (hn : n ≤ 32) (hx : (s.draw x y n).readV x = s.readV x)
    (hy : (s.draw x y n).readV y = s.readV y) : ((s.draw x y n).draw x y n).disp = s.disp := by
  refine Grid.ext fun y' x' => ?_
  have first := s.draw_changes_iff x y hn y' x'
  have second := (s.draw x y n).draw_changes_iff x y hn y' x'
  rw [hx, hy, State.spriteOnes_draw, ← first] at second
  have flipped_back : ∀ old mid new : Bool, (new ≠ mid ↔ mid ≠ old) → new = old := by decide
  exact flipped_back _ _ _ second

end Changes

/-! ### How many bits are 1 (R132 (c)) -/

/-- The order in which the bits of a byte are read does not matter for their number. -/
theorem onesOf_eq_sum (b : Byte) : onesOf b = ∑ c ∈ Finset.range 8, if b.getLsbD (7 - c) = true then 1 else 0 := by
  rw [Finset.sum_range_reflect (fun c => if b.getLsbD c = true then 1 else 0) 8, ← Finset.card_filter]
  have counted : onesOf b = (List.range 8).countP fun c => decide (b.getLsbD c = true) := by
    simp only [onesOf, Bool.decide_eq_true]
  exact counted.trans List.countP_eq_length_filter

theorem State.card_spriteOnes (s : State) (n : Nat) :
    (s.spriteOnes n).card = ((List.range n).map fun r => onesOf (s.mem.read (s.dataAddr r))).sum := by
  calc (s.spriteOnes n).card
      = ∑ r ∈ Finset.range n, ∑ c ∈ Finset.range 8, if s.spriteBit r c = true then 1 else 0 := by
        rw [State.spriteOnes, Finset.card_filter, Finset.sum_product]
    _ = ∑ r ∈ Finset.range n, onesOf (s.mem.read (s.dataAddr r)) :=
        Finset.sum_congr rfl fun r _ => (onesOf_eq_sum _).symm
    _ = _ := rfl

/-! ### The statements of 43_display.md -/

/-- Settles O51: CLS writes the blank grid and nothing else. -/
theorem clearScreenZeroesEveryCell : Obligations.ClearScreenZeroesEveryCell := by
  unfold Obligations.ClearScreenZeroesEveryCell
  intro s
  exact ⟨by decide, _, rfl, Grid.cell_blank, frames_disp s _⟩

/-- Settles O52: DRW draws one sprite of at most 15 rows (`exec_drw_of_inMemory`), whose cells and flag are known. -/
theorem drawXorsTheSpriteAndReportsCollisions : Obligations.DrawXorsTheSpriteAndReportsCollisions := by
  unfold Obligations.DrawXorsTheSpriteAndReportsCollisions
  intro s x y n inside
  have hn : n.val ≤ 32 := by omega
  refine ⟨decodeWord_encode (.drw x y n), _, exec_drw_of_inMemory inside x y,
    fun r c hr hc => s.draw_cell_covered x y hn hr hc, fun y' x' => s.draw_cell_uncovered x y,
    (s.draw_flag_eq_one_iff x y hn).mpr, fun clear => ?_, frames_draw s x y _⟩
  refine (s.draw_flag_zero_or_one x y n).resolve_right fun one => ?_
  obtain ⟨r, c, hr, hc, set, bit⟩ := (s.draw_flag_eq_one_iff x y hn).mp one
  simp [clear r c hr hc set] at bit

/-- Settles O53: the two draws change the same cells (`State.draw_draw_disp`), and each flag says whether its draw turned
a cell off; the cells the second turns off are those the first turned on. -/
theorem doubleDrawRestoresTheDisplay : Obligations.DoubleDrawRestoresTheDisplay := by
  unfold Obligations.DoubleDrawRestoresTheDisplay
  intro s t u x y n inside first hx hy second
  have hn : n.val ≤ 32 := by omega
  cases (exec_drw_of_inMemory inside x y).symm.trans first
  have inside' : (s.draw x y n.val).InMemory n.val := inside
  cases (exec_drw_of_inMemory inside' x y).symm.trans second
  have restored := s.draw_draw_disp x y hn hx hy
  have secondFlag := (s.draw x y n.val).draw_flag_eq_one_iff_turned_off x y hn
  simp only [restored, and_comm] at secondFlag
  exact ⟨restored, s.draw_flag_eq_one_iff_turned_off x y hn, secondFlag, s.draw_flag_zero_or_one x y _,
    State.draw_flag_zero_or_one _ x y _⟩

/-- Settles O54: the cells that change are the image of the sprite's 1 bits (`State.draw_changes_iff`), one cell for each
bit (`spriteCell_injOn`). -/
theorem drawChangesAsManyCellsAsBits : Obligations.DrawChangesAsManyCellsAsBits := by
  unfold Obligations.DrawChangesAsManyCellsAsBits
  intro s t x y n inside ran
  have hn : n.val ≤ 32 := by omega
  cases (exec_drw_of_inMemory inside x y).symm.trans ran
  have changed : (Finset.univ.filter fun q : Fin 32 × Fin 64 =>
      (s.draw x y n.val).disp.cell q.1 q.2 ≠ s.disp.cell q.1 q.2) =
      (s.spriteOnes n.val).image (spriteCell (s.readV x) (s.readV y)) := by
    ext ⟨y', x'⟩
    simp only [Finset.mem_filter_univ, s.draw_changes_iff x y hn]
  rw [changed, Finset.card_image_of_injOn (spriteCell_injOn s _ _ hn), s.card_spriteOnes]

end Sys2Proof.Machine
end

section
/-! SUPPORT. The statements of 44_keys_timers.md, and what they rest on: the keys pressed in one sample, in rising order
(`State.pressedKeys_of_lowest`), the key picked of them under either KEYWAIT_PICK, one sample of a key-wait for each of
its three outcomes, and the condition of a key skip. -/

namespace Sys2Proof.Machine

/-! ### The keys pressed in one sample (R143) -/

theorem mem_allIndices (k : KeyIx) : k ∈ allIndices := by revert k; decide

theorem allIndices_rising : allIndices.Pairwise (· < ·) := by decide

section Sample

variable {s : State} {x : RegIx} {k : KeyIx} {ks : List KeyIx}

@[simp] theorem State.mem_pressedKeys : k ∈ s.pressedKeys ↔ s.key[k.val] = true := by
  simp [State.pressedKeys, State.keyDown, mem_allIndices]

theorem State.pressedKeys_eq_nil (none_down : ∀ k : KeyIx, s.key[k.val] = false) : s.pressedKeys = [] :=
  List.eq_nil_iff_forall_not_mem.mpr fun k down => by
    simp [none_down k] at down

/-- The scan rises, so the lowest pressed key comes first. -/
theorem State.pressedKeys_of_lowest (down : s.key[k.val] = true) (lowest : ∀ j : KeyIx, j < k → s.key[j.val] = false) :
    ∃ ks, s.pressedKeys = k :: ks := by
  have mem : k ∈ s.pressedKeys := State.mem_pressedKeys.mpr down
  have rising : s.pressedKeys.Pairwise (· < ·) := allIndices_rising.filter _
  cases scan : s.pressedKeys with
  | nil => simp [scan] at mem
  | cons j js =>
    have j_down : s.key[j.val] = true := State.mem_pressedKeys.mp (scan ▸ List.mem_cons_self)
    rw [scan] at mem rising
    obtain rfl | later := List.mem_cons.mp mem
    · exact ⟨js, rfl⟩
    · have j_up := lowest j (List.rel_of_pairwise_cons rising later)
      exact absurd (j_down.symm.trans j_up) (by decide)

/-! ### The key picked (R143 (b), D17) -/

theorem State.pickKey_lowest (pick : s.params.keyPick = .lowest) : s.pickKey k ks = (k, s) := by
  simp only [State.pickKey, pick]

theorem State.pickKey_anyPressed (pick : s.params.keyPick = .anyPressed) :
    ∃ j ∈ k :: ks, s.pickKey k ks = (j, { s with draws := s.draws + 1 }) := by
  refine ⟨_, (s.pickKey_spec k ks).1, ?_⟩
  simp only [State.pickKey, pick]

/-! ### One sample of a key-wait (R143, D18) -/

theorem step_of_waiting (turn : s.nextMove = .execUnit) (waiting : s.exec = .waitK x) :
    step s = .next (waitStep x s.popAgenda) := by
  have waiting' : s.popAgenda.exec = .waitK x := waiting
  rw [step_eq_makeMove turn]
  simp only [makeMove, execTurn, waiting']

theorem waitStep_of_stopped (stopped : s.run = .stopped) : waitStep x s = s.halt .stopped := by
  simp only [waitStep, stopped]

theorem waitStep_of_no_key (live : s.run ≠ .stopped) (scan : s.pressedKeys = []) : waitStep x s = s := by
  cases run : s.run with
  | stopped => exact absurd run live
  | starting | running | paused => simp only [waitStep, run, scan]

theorem waitStep_of_picked {j : KeyIx} {t : State} (live : s.run ≠ .stopped) (scan : s.pressedKeys = k :: ks)
    (picked : s.pickKey k ks = (j, t)) :
    waitStep x s = { t.setV x (BitVec.ofNat 8 j.val) with exec := .runnable } := by
  cases run : s.run with
  | stopped => exact absurd run live
  | starting | running | paused => simp only [waitStep, run, scan, picked]

end Sample

/-! ### The condition of a key skip (R140, R141) -/

section KeySkip

variable {s : State} {x : RegIx} {k : KeyIx} (low : k.val = (s.readV x).toNat % 16)
include low

theorem State.skipCondition_skp : s.skipCondition (.skp x) = some (decide (s.key[k.val] = true)) := by
  simp [State.skipCondition, low]

theorem State.skipCondition_sknp : s.skipCondition (.sknp x) = some (decide (s.key[k.val] = false)) := by
  simp [State.skipCondition, low]

end KeySkip

/-! ### The statements of 44_keys_timers.md -/

/-- Settles O22: the step is one sample (`step_of_waiting`), with one lemma for each outcome; the lowest pressed key is
the first of the scan (`State.pressedKeys_of_lowest`), and the free choice is among the keys scanned. -/
theorem keyWaitSample : Obligations.KeyWaitSample := by
  unfold Obligations.KeyWaitSample
  intro s x turn waiting
  have sampled := step_of_waiting turn waiting
  refine ⟨fun stopped => ?_, fun live none_down => ?_, fun live k down => ⟨fun pick lowest => ?_, fun pick => ?_⟩⟩
  · rw [sampled, waitStep_of_stopped (s := s.popAgenda) stopped]
    rfl
  · rw [sampled, waitStep_of_no_key (s := s.popAgenda) live (State.pressedKeys_eq_nil none_down)]
    rfl
  · obtain ⟨ks, scan⟩ := State.pressedKeys_of_lowest down lowest
    rw [sampled, waitStep_of_picked (s := s.popAgenda) live scan (State.pickKey_lowest pick)]
    rfl
  · obtain ⟨first, ks, scan⟩ := List.exists_cons_of_ne_nil (List.ne_nil_of_mem (State.mem_pressedKeys.mpr down))
    obtain ⟨j, mem, picked⟩ := State.pickKey_anyPressed (s := s.popAgenda) (k := first) (ks := ks) pick
    refine ⟨j, State.mem_pressedKeys.mp (scan ▸ mem), ?_⟩
    rw [sampled, waitStep_of_picked (s := s.popAgenda) live scan picked]
    rfl

/-- Settles O42: each of the two is a skip (`exec_skip`) whose condition is the state of the key numbered by V[X]. -/
theorem keySkips : Obligations.KeySkips := by
  unfold Obligations.KeySkips
  intro s x k low
  exact ⟨decodeWord_encode (.skp x), decodeWord_encode (.sknp x),
    exec_skip (State.skipCondition_skp low), exec_skip (State.skipCondition_sknp low)⟩

/-- Settles O55: the issue step is one write of EXEC, and HALT_CAUSE reads 0 off WAITK. -/
theorem keyWaitIssues : Obligations.KeyWaitIssues := by
  unfold Obligations.KeyWaitIssues
  intro s x
  exact ⟨decodeWord_encode (.ldVxK x), _, rfl, rfl, rfl, frames_exec s _⟩

/-- Settles O56: each of the three is one write, of V[X], of DT or of ST. -/
theorem timerTransfersCopyOneByte : Obligations.TimerTransfersCopyOneByte := by
  unfold Obligations.TimerTransfersCopyOneByte
  intro s x
  exact ⟨decodeWord_encode (.ldVxDt x), decodeWord_encode (.ldDtVx x), decodeWord_encode (.ldStVx x),
    exec_writesRegister rfl, ⟨_, rfl, rfl, frames_dt s _⟩, ⟨_, rfl, rfl, bne_iff_ne, frames_st s _⟩⟩

end Sys2Proof.Machine
end

section
/-! SUPPORT. The statements of 45_memory_transfer.md, and what they rest on: each of the three instructions as the access
CheckData lets through, the decimal digits as numbers, a register after the bulk load, and the advance of I. -/

namespace Sys2Proof.Machine

/-! ### The access CheckData lets through (R46) -/

theorem exec_ldB_of_inMemory {s : State} (inside : s.InMemory 3) (x : RegIx) :
    exec (.ldB x) s = .next (s.writeBlock 0 (decimalDigits (s.readV x))) :=
  congrArg Host.Outcome.next (State.withData_of_inMemory inside _)

theorem exec_ldVxInd_of_inMemory {s : State} {x : RegIx} (inside : s.InMemory (x.val + 1)) :
    exec (.ldVxInd x) s =
      .next (State.advanceIndex { s with v := writeRegisters s.v 0 (s.readBlock (x.val + 1)) } x) :=
  congrArg Host.Outcome.next (State.withData_of_inMemory inside _)

/-! ### The decimal digits (R150) -/

@[simp] theorem length_decimalDigits (b : Byte) : (decimalDigits b).length = 3 := rfl

/-- The k-th digit stored at I. -/
theorem State.read_storeDigits {s : State} (wf : s.mem.wf) (b : Byte) (k : Fin 3) :
    (s.writeBlock 0 (decimalDigits b)).mem.read (s.dataAddr k.val) = (decimalDigits b)[k.val]'k.isLt := by
  simpa using State.read_writeBlock_at (decimalDigits b) s 0 k.val wf k.isLt (by simp)

/-! ### The registers loaded (R152) -/

theorem State.readV_loadRegisters {s : State} {x k : RegIx} (le : k ≤ x) :
    (State.advanceIndex { s with v := writeRegisters s.v 0 (s.readBlock (x.val + 1)) } x).readV k =
      s.mem.read (s.dataAddr k.val) := by
  have lt : k.val < x.val + 1 := Nat.lt_succ_of_le le
  rw [State.advanceIndex_eq]
  simp [State.readV, getElem_writeRegisters, lt]

/-! ### The advance of I (R151, R152) -/

theorem State.advanceIndex_base_toNat {s : State} (base : s.variant = .base) (x : RegIx) :
    (s.advanceIndex x).i.toNat = (s.i.toNat + x.val + 1) % 65536 := by
  simp [State.advanceIndex_eq, base, Nat.add_assoc]

/-! ### The statements of 45_memory_transfer.md -/

/-- Settles O57: the three digits are one block at I (`read_storeDigits`), and a byte's quotient and remainder are
those of its number by definition. -/
theorem bcdStoresThreeDigits : Obligations.BcdStoresThreeDigits := by
  unfold Obligations.BcdStoresThreeDigits
  intro s x wf inside
  have digit (k : Fin 3) := congrArg BitVec.toNat (State.read_storeDigits wf (s.readV x) k)
  exact ⟨decodeWord_encode (.ldB x), _, exec_ldB_of_inMemory inside x, digit 0, digit 1, digit 2,
    frames_writeBlock s (decimalDigits _)⟩

/-- Settles O58: the registers are one block at I (`read_storeRegisters`); the frame says that I stays outside Base. -/
theorem bulkStoreWritesTheRegisters : Obligations.BulkStoreWritesTheRegisters := by
  unfold Obligations.BulkStoreWritesTheRegisters
  intro s x wf inside
  have frame := frames_storeRegisters s x
  have stored := frames_writeBlock s (s.v.toList.take (x.val + 1))
  refine ⟨decodeWord_encode (.ldIndVx x), _, exec_ldIndVx_of_inMemory inside,
    fun k le => State.read_storeRegisters wf le, fun base => ?_, frame.i, frame⟩
  rw [State.advanceIndex_base_toNat (stored.variant.trans base), stored.i id]

/-- Settles O59: the registers are one block read from I (`readV_loadRegisters`); the frame says that I stays outside
Base. -/
theorem bulkLoadReadsTheRegisters : Obligations.BulkLoadReadsTheRegisters := by
  unfold Obligations.BulkLoadReadsTheRegisters
  intro s x inside
  have frame := frames_loadRegisters s x
  have advanced := State.advanceIndex_base_toNat (s := { s with v := writeRegisters s.v 0 (s.readBlock (x.val + 1)) })
  exact ⟨decodeWord_encode (.ldVxInd x), _, exec_ldVxInd_of_inMemory inside,
    fun k le => State.readV_loadRegisters le, fun base => advanced base x, frame.i, frame⟩

end Sys2Proof.Machine
end

section
/-! SUPPORT. The statements of 60_exceptions.md, and what they rest on: when an instruction halts the unit (read off
`footprint`), which steps halt it (`step_halts`) and that no step undoes it (`step_keeps_halt`), the steps that leave
the execution state alone (`step_sameExecutionState_or`), and the ticks of either timer, one at a time and in a row
(`run_ticks`). -/

namespace Sys2Proof.Machine

/-! ### The unit's turn (R60, R163, R168, R173) -/

theorem State.haltCause_of_halted {s : State} {c : Cause} (halted : s.exec = .halted c) : s.haltCause = c.code := by
  simp only [State.haltCause, halted]

theorem Cause.code_ne_zero (c : Cause) : c.code ≠ 0 := by cases c <;> decide

theorem step_of_runnable {s : State} (turn : s.nextMove = .execUnit) (runnable : s.exec = .runnable) :
    step s = execStep s.popAgenda := by
  have runnable' : s.popAgenda.exec = .runnable := runnable
  rw [step_eq_makeMove turn]
  simp only [makeMove, execTurn, runnable']

theorem execStep_of_stopped {s : State} (stopped : s.run = .stopped) : execStep s = .next (s.halt .stopped) := by
  simp only [execStep, stopped]

theorem execStep_of_suspended {s : State} (suspended : s.run = .paused ∨ s.run = .starting) :
    execStep s = .next s := by
  obtain run | run := suspended <;> simp only [execStep, run]

theorem State.fetchBlocked_iff (s : State) :
    s.fetchBlocked = true ↔ s.pc.toNat > 0x0FFE ∨ (s.params.pcAlignCheck = true ∧ s.pc.toNat % 2 = 1) := by
  simp [State.fetchBlocked]

theorem execStep_of_blocked {s : State} (running : s.run = .running) (blocked : s.fetchBlocked = true) :
    execStep s = .next (s.halt .pcOutOfBounds) := by
  simp [execStep, running, runInstruction, blocked]

/-- Once RUN reads Stopped a live unit halts, in a key-wait as between instructions (R173). -/
theorem step_of_stopped_turn {s : State} (turn : s.nextMove = .execUnit) (stopped : s.run = .stopped)
    (live : s.exec = .runnable ∨ ∃ x, s.exec = .waitK x) : step s = .next (s.popAgenda.halt .stopped) := by
  obtain runnable | ⟨x, waiting⟩ := live
  · exact (step_of_runnable turn runnable).trans (execStep_of_stopped (s := s.popAgenda) stopped)
  · exact (step_of_waiting turn waiting).trans
      (congrArg Host.Outcome.next (waitStep_of_stopped (s := s.popAgenda) stopped))

/-! ### The halts (R161, R163) -/

/-- Where an instruction's answer is the state halted with `d`, a halt with `c` is that one. -/
theorem eq_halt_of_exec {i : Instr} {s t : State} {c d : Cause} (ran : exec i s = .next t)
    (halted : t.exec = .halted c) (halts : exec i s = .next (s.halt d)) : t = s.halt c ∧ c = d := by
  cases ran.symm.trans halts
  cases halted
  exact ⟨rfl, rfl⟩

/-- Where CheckData fails, a halt with `c` is the one of cause 5, at bytes outside MEM (R46). -/
theorem eq_halt_of_dataFaults {s t : State} {c : Cause} {n : Nat} {access : State → State}
    (faults : s.dataFaults n = true) (ran : s.withData n access = t) (halted : t.exec = .halted c) :
    t = s.halt c ∧ c = .memOutOfBounds ∧ ¬ s.InMemory n := by
  have beyond : ¬ s.InMemory n := by simp [← s.dataFaults_eq_false_iff, faults]
  rw [State.withData_of_not_inMemory beyond] at ran
  subst ran
  cases halted
  exact ⟨rfl, rfl, beyond⟩

/-- Settles O25: an instruction that halts the unit has EXEC in its footprint, and each of those that do answers the
halted state and nothing else; LD Vx, K writes WAITK there. -/
theorem faultingInstructionsWriteNothing : Obligations.FaultingInstructionsWriteNothing := by
  unfold Obligations.FaultingInstructionsWriteNothing
  intro i s t c runnable ran halted
  have changed : t.exec ≠ s.exec := by simp [halted, runnable]
  have writes : (footprint i s).exec := not_imp_comm.mp (exec_frames_of_next ran).exec changed
  cases i with
  | ret =>
    have empty : s.sp = 0 := writes
    obtain ⟨eq, cause⟩ := eq_halt_of_exec ran halted (exec_ret_of_empty (Fin.val_eq_of_eq empty))
    exact ⟨eq, .inl ⟨rfl, cause, empty⟩⟩
  | call nnn =>
    have full : s.stackFull := writes
    obtain ⟨eq, cause⟩ := eq_halt_of_exec ran halted (exec_call_of_full nnn full)
    exact ⟨eq, .inr (.inl ⟨⟨nnn, rfl⟩, cause, full⟩)⟩
  | drw x y n =>
    obtain ⟨eq, cause, beyond⟩ := eq_halt_of_dataFaults writes (Host.Outcome.next.inj ran) halted
    exact ⟨eq, .inr (.inr (.inl ⟨⟨x, y, n, rfl, beyond⟩, cause⟩))⟩
  | ldB x =>
    obtain ⟨eq, cause, beyond⟩ := eq_halt_of_dataFaults writes (Host.Outcome.next.inj ran) halted
    exact ⟨eq, .inr (.inr (.inr (.inl ⟨⟨x, rfl, beyond⟩, cause⟩)))⟩
  | ldIndVx x =>
    obtain ⟨eq, cause, beyond⟩ := eq_halt_of_dataFaults writes (Host.Outcome.next.inj ran) halted
    exact ⟨eq, .inr (.inr (.inr (.inr ⟨⟨x, .inl rfl, beyond⟩, cause⟩)))⟩
  | ldVxInd x =>
    obtain ⟨eq, cause, beyond⟩ := eq_halt_of_dataFaults writes (Host.Outcome.next.inj ran) halted
    exact ⟨eq, .inr (.inr (.inr (.inr ⟨⟨x, .inr rfl, beyond⟩, cause⟩)))⟩
  | ldVxK x => cases ran; cases halted
  | _ => exact writes.elim

/-- Cause 1 is no instruction's: it comes of RUN alone (R160). -/
theorem exec_cause_ne_stopped {i : Instr} {s t : State} {c : Cause} (runnable : s.exec = .runnable)
    (ran : exec i s = .next t) (halted : t.exec = .halted c) : c ≠ .stopped := by
  obtain ⟨-, ⟨-, rfl, -⟩ | ⟨-, rfl, -⟩ | ⟨-, rfl⟩ | ⟨-, rfl⟩ | ⟨-, rfl⟩⟩ :=
    faultingInstructionsWriteNothing i s t c runnable ran halted
  all_goals nofun

/-- A unit that is halted after a step was halted before it, or has seen Stopped, or has faulted while Running. -/
theorem step_halts {s t : State} {c : Cause} (h : step s = .next t) (halted : t.exec = .halted c) :
    s.exec = .halted c ∨ (s.run = .stopped ∧ c = .stopped) ∨ (s.run = .running ∧ c ≠ .stopped) := by
  cases step_cases h with
  | sawStopped _ _ run eq => subst eq; cases halted; exact .inr (.inl ⟨run, rfl⟩)
  | blocked _ _ run _ eq => subst eq; cases halted; exact .inr (.inr ⟨run, nofun⟩)
  | instruction _ _ runnable run _ _ ran =>
    exact .inr (.inr ⟨run, exec_cause_ne_stopped (s := s.popAgenda.fetched) runnable ran halted⟩)
  | keyTaken _ _ _ _ _ _ _ eq => subst eq; cases halted
  | delay _ eq => rw [eq, delayTick_eq] at halted; exact .inl halted
  | sound _ eq => rw [eq, soundTick_eq] at halted; exact .inl halted
  | idle _ _ _ eq | unknown _ _ _ _ _ _ eq | key _ _ _ eq | setRun _ _ _ _ eq | load _ _ _ _ eq
  | strap _ _ _ _ _ eq => subst eq; exact .inl halted

/-- HALTED is terminal (R163, R165). -/
theorem step_keeps_halt {s t : State} {c : Cause} (halted : s.exec = .halted c) (h : step s = .next t) :
    t.exec = .halted c := by
  cases step_cases h with
  | sawStopped _ live | idle _ live => exact absurd halted (live c)
  | blocked _ runnable | instruction _ _ runnable | unknown _ _ runnable => cases halted.symm.trans runnable
  | keyTaken _ _ _ waiting => cases halted.symm.trans waiting
  | delay _ eq => rw [eq, delayTick_eq]; exact halted
  | sound _ eq => rw [eq, soundTick_eq]; exact halted
  | key _ _ _ eq | setRun _ _ _ _ eq | load _ _ _ _ eq | strap _ _ _ _ _ eq => subst eq; exact halted

/-! ### Steps that leave the execution state alone (R164, R174) -/

theorem SameExecutionState.refl (s : State) : SameExecutionState s s :=
  ⟨rfl, rfl, rfl, rfl, rfl, fun _ => rfl, rfl, rfl⟩

theorem SameExecutionState.trans {s t u : State} (a : SameExecutionState s t) (b : SameExecutionState t u) :
    SameExecutionState s u where
  v := b.v.trans a.v
  i := b.i.trans a.i
  pc := b.pc.trans a.pc
  sp := b.sp.trans a.sp
  stk := b.stk.trans a.stk
  mem x := (b.mem x).trans (a.mem x)
  disp := b.disp.trans a.disp
  reports := b.reports.trans a.reports

/-- Only a live unit and the loader before the start write the execution state, and neither where RUN is Stopped. -/
theorem step_sameExecutionState_or {s t : State} (h : step s = .next t) :
    SameExecutionState s t ∨ s.run ≠ .stopped ∧ ((∀ c, s.exec ≠ .halted c) ∨ s.boot ≠ .started) := by
  cases step_cases h with
  | instruction _ _ runnable run | unknown _ _ runnable run => exact .inr (by simp [runnable, run])
  | keyTaken _ _ _ waiting run => exact .inr ⟨run, .inl (by simp [waiting])⟩
  | load _ _ allowed =>
    obtain ⟨early, run⟩ := s.mayLoad_iff.mp allowed
    exact .inr ⟨run, .inr (by obtain e | e := early <;> simp [e])⟩
  | delay _ eq => rw [eq, delayTick_eq]; exact .inl ⟨rfl, rfl, rfl, rfl, rfl, fun _ => rfl, rfl, rfl⟩
  | sound _ eq => rw [eq, soundTick_eq]; exact .inl ⟨rfl, rfl, rfl, rfl, rfl, fun _ => rfl, rfl, rfl⟩
  | sawStopped _ _ _ eq | idle _ _ _ eq | blocked _ _ _ _ eq | key _ _ _ eq | setRun _ _ _ _ eq
  | strap _ _ _ _ _ eq => subst eq; exact .inl ⟨rfl, rfl, rfl, rfl, rfl, fun _ => rfl, rfl, rfl⟩

/-- A step from Stopped leaves RUN there and neither counter changed (R174). -/
theorem step_keeps_stopped {s t : State} (stopped : s.run = .stopped) (h : step s = .next t) :
    t.run = .stopped ∧ t.dt = s.dt ∧ t.st = s.st := by
  cases step_cases h with
  | blocked _ _ run | instruction _ _ _ run | unknown _ _ _ run => cases stopped.symm.trans run
  | keyTaken _ _ _ _ run => exact absurd stopped run
  | delay _ eq => rw [eq, delayTick_eq]; exact ⟨stopped, if_neg (by simp [stopped]), rfl⟩
  | sound _ eq => rw [eq, soundTick_eq]; exact ⟨stopped, rfl, if_neg (by simp [stopped])⟩
  | setRun _ _ latched _ eq => subst eq; exact ⟨latched stopped, rfl, rfl⟩
  | sawStopped _ _ _ eq | idle _ _ _ eq | key _ _ _ eq | load _ _ _ _ eq | strap _ _ _ _ _ eq =>
    subst eq; exact ⟨stopped, rfl, rfl⟩

/-! ### RUN and the boot (R5, R192) -/

theorem hostRun_running_boot {s t : State} (h : hostRun .running s = .next t) : t.boot = .started := by
  unfold hostRun at h
  split at h
  · cases h
  · split at h
    · cases h
    · cases h
      rfl

/-- RUN reads Running after a step only if it did before, or if the host's write of it has started the machine. -/
theorem running_or_started_of_step {s t : State} (h : step s = .next t) (running : t.run = .running) :
    s.run = .running ∨ t.boot = .started := by
  by_cases same : t.run = s.run
  · exact .inl (same ▸ running)
  · obtain ⟨onlyHost, -⟩ := onlyTheHostWritesItsInputs s t h
    obtain ⟨r, turn, written⟩ := onlyHost same
    obtain rfl : r = .running := written.symm.trans running
    exact .inr (hostRun_running_boot ((step_eq_makeMove turn).symm.trans h))

/-! ### Ticks of either timer (R175, R176) -/

/-- DT or ST. -/
def State.counter (s : State) : Timer → Byte
  | .delay => s.dt
  | .sound => s.st

/-- DT_ALIVE or ST_ALIVE. -/
def State.alive (s : State) : Timer → Bool
  | .delay => s.dtAlive
  | .sound => s.stAlive

section Tick

variable (τ : Timer) (s : State)

theorem timerTick_counter : (timerTick τ s).counter τ =
    if s.alive τ = true ∧ s.run = .running then countDown (s.counter τ) else s.counter τ := by
  cases τ with
  | delay => exact congrArg State.dt (delayTick_eq s)
  | sound => exact congrArg State.st (soundTick_eq s)

theorem timerTick_alive : (timerTick τ s).alive τ = if s.run = .stopped then false else s.alive τ := by
  cases τ with
  | delay => exact congrArg State.dtAlive (delayTick_eq s)
  | sound => exact congrArg State.stAlive (soundTick_eq s)

/-- EXEC takes no part in a tick, and RUN and the agenda are only read. -/
theorem timerTick_frame :
    (timerTick τ s).exec = s.exec ∧ (timerTick τ s).run = s.run ∧ (timerTick τ s).agenda = s.agenda := by
  cases τ with
  | delay => simp only [timerTick, delayTick_eq, and_self]
  | sound => simp only [timerTick, soundTick_eq, and_self]

end Tick

theorem step_of_tick {τ : Timer} {s : State} (turn : s.nextMove = .tick τ) :
    step s = .next (timerTick τ s.popAgenda) :=
  step_eq_makeMove turn

/-- A tick in a halted unit, RUN being Running, decrements and leaves the cause on its port (R164). -/
theorem step_tick_of_halted {τ : Timer} {s : State} {c : Cause} (halted : s.exec = .halted c)
    (running : s.run = .running) (turn : s.nextMove = .tick τ) (alive : s.alive τ = true) :
    ∃ t, step s = .next t ∧ (t.counter τ).toNat = (s.counter τ).toNat - 1 ∧ t.haltCause = c.code ∧
      t.haltCause ≠ 0 := by
  have counter : (timerTick τ s.popAgenda).counter τ = countDown (s.counter τ) :=
    (timerTick_counter τ s.popAgenda).trans (if_pos ⟨alive, running⟩)
  have cause : (timerTick τ s.popAgenda).haltCause = c.code :=
    State.haltCause_of_halted ((timerTick_frame τ s.popAgenda).1.trans halted)
  exact ⟨_, step_of_tick turn, by rw [counter, countDown_toNat], cause, cause ▸ c.code_ne_zero⟩

/-- `k` ticks in a row, RUN not being Stopped: Running takes `k` off the counter, anything else nothing (R176 (a)). -/
theorem run_ticks (τ : Timer) (k : Nat) (rest : List Move) (s : State) (alive : s.alive τ = true)
    (live : s.run ≠ .stopped) (agenda : s.agenda = List.replicate k (.tick τ) ++ rest) :
    ∃ t : State, Host.Core.run Sys2Proof.core k s = .next t ∧
      (s.run = .running → (t.counter τ).toNat = (s.counter τ).toNat - k) ∧
      (s.run ≠ .running → t.counter τ = s.counter τ) := by
  induction k generalizing s with
  | zero => exact ⟨s, rfl, fun _ => rfl, fun _ => rfl⟩
  | succ k ih =>
    have turn : s.nextMove = .tick τ := by simp [State.nextMove, agenda, List.replicate_succ]
    have tail : s.popAgenda.agenda = List.replicate k (.tick τ) ++ rest := by
      simp [agenda, List.replicate_succ]
    obtain ⟨-, run, agenda'⟩ := timerTick_frame τ s.popAgenda
    have counter := timerTick_counter τ s.popAgenda
    obtain ⟨t, ran, down, still⟩ := ih (timerTick τ s.popAgenda)
      ((timerTick_alive τ s.popAgenda).trans ((if_neg live).trans alive)) (run ▸ live) (agenda'.trans tail)
    refine ⟨t, (run_succ_of_step k (step_of_tick turn)).trans ran, fun running => ?_, fun idle => ?_⟩
    · have one : (timerTick τ s.popAgenda).counter τ = countDown (s.counter τ) :=
        counter.trans (if_pos ⟨alive, running⟩)
      rw [down (run.trans running), one, countDown_toNat]
      omega
    · exact (still (run ▸ idle)).trans (counter.trans (if_neg fun h => idle h.2))

/-- The guarded decrement with the clamp at 0 among the guards (R21, R22). -/
theorem ite_countDown (p q : Prop) [Decidable p] [Decidable q] (b : Byte) :
    (if p ∧ q then countDown b else b) = if p ∧ q ∧ b ≠ 0 then b - 1 else b := by
  by_cases zero : b = 0
  · simp [zero, countDown]
  · rw [countDown, if_neg zero]
    simp only [ne_eq, zero, not_false_eq_true, and_true]

/-! ### The statements of 60_exceptions.md -/

/-- Settles O14: one step from Stopped keeps RUN and the counters (`step_keeps_stopped`) and the execution state
(`step_sameExecutionState_or`), and so does a run, by induction on its length. -/
theorem stoppedIsTerminal : Obligations.StoppedIsTerminal := by
  unfold Obligations.StoppedIsTerminal
  intro k
  induction k with
  | zero =>
    rintro s t stopped ⟨⟩
    exact ⟨stopped, rfl, rfl, .refl s⟩
  | succ k ih =>
    intro s t stopped ran
    obtain ⟨u, first, ran⟩ := run_succ_next ran
    obtain ⟨stopped', dt, st⟩ := step_keeps_stopped stopped first
    have same : SameExecutionState s u := (step_sameExecutionState_or first).resolve_right fun h => h.1 stopped
    obtain ⟨last, dt', st', same'⟩ := ih u t stopped' ran
    exact ⟨last, dt'.trans dt, st'.trans st, same.trans same'⟩

/-- Settles O31: whatever puts the latch at stake (a dead decrementer, a halt, RUN reading Running) was there before the
step or came of Stopped, of a fault while Running, or of the start (`step_halts`, `running_or_started_of_step`); and
Stopped and the start are themselves kept. -/
theorem stepKeepsStopLatched : Obligations.StepKeepsStopLatched := by
  unfold Obligations.StepKeepsStopLatched
  intro s t inv h
  have stays (stopped : s.run = .stopped) : t.run = .stopped := (step_keeps_stopped stopped h).1
  have started (b : s.boot = .started) : t.boot = .started := (memoryAndVariantAfterStart s t b h).1
  obtain ⟨-, -, dies⟩ := decrementersDieForGood
  obtain ⟨delay, sound, -, -⟩ := dies s t h
  constructor
  case delay_dead => exact fun dead => stays ((delay.mp dead).elim inv.delay_dead (·.2))
  case sound_dead => exact fun dead => stays ((sound.mp dead).elim inv.sound_dead (·.2))
  case stopped_seen =>
    intro halted
    obtain before | ⟨stopped, -⟩ | ⟨-, other⟩ := step_halts h halted
    · exact stays (inv.stopped_seen before)
    · exact stays stopped
    · exact absurd rfl other
  case running_started =>
    intro running
    obtain before | b := running_or_started_of_step h running
    · exact started (inv.running_started before)
    · exact b
  case halted_over =>
    intro c halted
    obtain before | ⟨stopped, -⟩ | ⟨running, -⟩ := step_halts h halted
    · exact (inv.halted_over c before).imp started stays
    · exact .inr (stays stopped)
    · exact .inl (started (inv.running_started running))

/-- Settles O12: HALTED stays (`step_keeps_halt`), and what could still write the execution state needs a live unit or a
machine not started, and RUN not Stopped (`step_sameExecutionState_or`). -/
theorem haltFreezesTheExecutionState : Obligations.HaltFreezesTheExecutionState := by
  unfold Obligations.HaltFreezesTheExecutionState
  intro s t c halted ended h
  refine ⟨step_keeps_halt halted h, (step_sameExecutionState_or h).resolve_right ?_⟩
  rintro ⟨run, live | early⟩
  · exact live c halted
  · exact ended.elim early run

/-- Settles O13: a tick neither reads nor writes EXEC (`step_tick_of_halted`). -/
theorem timersRunOnAfterAHalt : Obligations.TimersRunOnAfterAHalt := by
  unfold Obligations.TimersRunOnAfterAHalt
  intro s c halted running
  exact ⟨step_tick_of_halted (τ := .delay) halted running, step_tick_of_halted (τ := .sound) halted running⟩

/-- Settles O21: the ticks of one timer in a row (`run_ticks`). -/
theorem timerCountsDownToZero : Obligations.TimerCountsDownToZero := by
  unfold Obligations.TimerCountsDownToZero
  intro k rest s
  refine ⟨fun alive agenda => ⟨fun running => ?_, fun paused => ?_⟩,
    fun alive agenda => ⟨fun running => ?_, fun paused => ?_⟩⟩
  · obtain ⟨t, ran, down, -⟩ := run_ticks .delay k rest s alive (by simp [running]) agenda
    exact ⟨t, ran, down running⟩
  · obtain ⟨t, ran, -, still⟩ := run_ticks .delay k rest s alive (by simp [paused]) agenda
    exact ⟨t, ran, still (by simp [paused])⟩
  · obtain ⟨t, ran, down, -⟩ := run_ticks .sound k rest s alive (by simp [running]) agenda
    exact ⟨t, ran, down running⟩
  · obtain ⟨t, ran, -, still⟩ := run_ticks .sound k rest s alive (by simp [paused]) agenda
    exact ⟨t, ran, still (by simp [paused])⟩

/-- Settles O8: the turn of a live unit that reads Stopped is one halt (`step_of_stopped_turn`). -/
theorem stoppedHaltsAtTheNextStep : Obligations.StoppedHaltsAtTheNextStep := by
  unfold Obligations.StoppedHaltsAtTheNextStep
  intro s turn stopped live
  exact ⟨_, step_of_stopped_turn turn stopped live, rfl, rfl⟩

/-- Settles O10: the step is `execStep`, which looks at RUN first and at the PC bound only while Running. -/
theorem runStatusComesBeforeThePcBound : Obligations.RunStatusComesBeforeThePcBound := by
  unfold Obligations.RunStatusComesBeforeThePcBound
  intro s turn runnable
  have stepped := step_of_runnable turn runnable
  refine ⟨fun stopped => ?_, fun suspended => ?_, fun running beyond => ?_⟩
  · exact stoppedHaltsAtTheNextStep s turn stopped (.inl runnable)
  · exact stepped.trans (execStep_of_suspended (s := s.popAgenda) suspended)
  · have blocked : s.popAgenda.fetchBlocked = true := s.fetchBlocked_iff.mpr beyond
    exact ⟨_, stepped.trans (execStep_of_blocked running blocked), rfl, rfl⟩

/-- Settles O11: the turn of a halted unit answers the fault. -/
theorem haltedUnitTakesNoStep : Obligations.HaltedUnitTakesNoStep := by
  unfold Obligations.HaltedUnitTakesNoStep
  intro s c turn halted
  have halted' : s.popAgenda.exec = .halted c := halted
  rw [step_eq_makeMove turn]
  simp only [makeMove, execTurn, halted']

/-- Settles O19: a tick in one equation (`delayTick_eq`, `soundTick_eq`), with the clamp of the decrement read as a
guard (`ite_countDown`). -/
theorem timerTickLaw : Obligations.TimerTick := by
  unfold Obligations.TimerTick
  intro s
  refine ⟨fun turn => ?_, fun turn => ?_⟩
  · rw [step_of_tick turn, timerTick, delayTick_eq, ite_countDown]
    rfl
  · rw [step_of_tick turn, timerTick, soundTick_eq, ite_countDown]
    rfl

end Sys2Proof.Machine
end

section
/-! SUPPORT. The statements of 70_reset_and_hazards.md, and what they rest on: the loader's two moves with each of
their answers, and where the glyphs and the image stand in the memory it loads. -/

namespace Sys2Proof.Machine

/-! ### The loader's moves (R192, R193, R26) -/

theorem imageWf_iff {image : List Byte} : imageWf image = true ↔ image.length ≤ 3584 := by
  simp [imageWf, maxImageLength]

/-- Every code but 3 names a variant (R26). -/
theorem exists_variantOfCode {code : BitVec 2} (free : code ≠ 3) : ∃ a, variantOfCode code = some a :=
  ⟨_, if_pos (bne_iff_ne.mpr free)⟩

theorem variantOfCode_code (a : Variant) : variantOfCode a.code = some a := by cases a <;> decide

section Load

variable {s : State} {image : List Byte} (turn : s.nextMove = .load image)
include turn

theorem step_load (allowed : s.mayLoad = true) (fits : image.length ≤ 3584) :
    step s = .next { s.popAgenda with mem := Memory.loaded s.params.glyphs image, boot := .loaded } :=
  (step_eq_makeMove turn).trans ((if_pos allowed).trans (if_pos (imageWf_iff.mpr fits)))

theorem step_load_imageTooLong (allowed : s.mayLoad = true) (long : 3584 < image.length) :
    step s = .refused .imageTooLong :=
  (step_eq_makeMove turn).trans
    ((if_pos allowed).trans (if_neg fun wf => Nat.not_le_of_lt long (imageWf_iff.mp wf)))

theorem step_load_outOfTurn (closed : ¬ s.mayLoad = true) : step s = .refused .loadOutOfTurn :=
  (step_eq_makeMove turn).trans (if_neg closed)

end Load

section Strap

variable {s : State} {code : BitVec 2} (turn : s.nextMove = .strap code)
include turn

theorem step_strap {a : Variant} (allowed : s.mayStrap = true) (named : variantOfCode code = some a) :
    step s = .next { s.popAgenda with variant := a, boot := .strapped } := by
  have allowed' : s.popAgenda.mayStrap = true := allowed
  rw [step_eq_makeMove turn]
  simp only [makeMove, hostStrap, if_pos allowed', named]

theorem step_strap_reservedVariant (allowed : s.mayStrap = true) (reserved : code = 3) :
    step s = .refused .reservedVariant := by
  subst reserved
  exact (step_eq_makeMove turn).trans (if_pos allowed)

theorem step_strap_outOfTurn (closed : ¬ s.mayStrap = true) : step s = .refused .strapOutOfTurn :=
  (step_eq_makeMove turn).trans (if_neg closed)

end Strap

/-- The host's RUN = Running, the boot being done. -/
theorem step_setRun_running {s : State} (turn : s.nextMove = .setRun .running) (live : s.run ≠ .stopped)
    (done : s.bootDone = true) : step s = .next { s.popAgenda with run := .running, boot := .started } :=
  (step_eq_makeMove turn).trans (hostRun_allowed (r := .running) (s := s.popAgenda) (.inl live) (.inr done))

/-! ### The memory it loads (R192 (1), (2), R42) -/

theorem glyphBytes_eq_flatten (g : GlyphTable) : glyphBytes g = g.flatten.toList := by
  simp [glyphBytes, Vector.flatten, Vector.toList, Function.comp_def]

/-- Row r of glyph c is byte 5 * c + r of the table: quotient and remainder of a division by 5. -/
theorem getElem_glyphBytes (g : GlyphTable) (c : Fin 16) (r : Fin 5) :
    (glyphBytes g)[5 * c.val + r.val]'(by rw [length_glyphBytes]; omega) = (g[c.val])[r.val] := by
  have quotient : (5 * c.val + r.val) / 5 = c.val := by omega
  have remainder : (5 * c.val + r.val) % 5 = r.val := by omega
  simp only [glyphBytes_eq_flatten, Vector.getElem_toList, Vector.getElem_flatten, quotient, remainder]

section Loaded

variable (g : GlyphTable) {image : List Byte}

theorem Memory.read_loaded_glyph (c : Fin 16) (r : Fin 5) :
    (Memory.loaded g image).read (5 * c.val + r.val) = (g[c.val])[r.val] := by
  rw [Memory.read_loaded, dif_pos (by omega), getElem_glyphBytes]

theorem Memory.read_loaded_image {k : Nat} (inside : k < image.length) :
    (Memory.loaded g image).read (0x200 + k) = image[k] := by
  rw [Memory.read_loaded, dif_neg (by omega), dif_pos (by omega)]
  simp only [Nat.add_sub_cancel_left]

theorem Memory.read_loaded_elsewhere {a : Nat} (above : 80 ≤ a) (outside : a < 0x200 ∨ 0x200 + image.length ≤ a) :
    (Memory.loaded g image).read a = 0 := by
  rw [Memory.read_loaded, dif_neg (by omega), dif_neg (by omega)]

end Loaded

/-! ### The statements of 70_reset_and_hazards.md -/

/-- Settles O34: the three moves of the boot, each in the phase the one before it leaves, and the memory of the first
(`Memory.read_loaded_glyph`, `Memory.read_loaded_image`, `Memory.read_loaded_elsewhere`). -/
theorem bootLoadsGlyphsAndImage : Obligations.BootLoadsGlyphsAndImage := by
  unfold Obligations.BootLoadsGlyphsAndImage
  intro p image variant fits
  refine ⟨_, ?_, ⟨Memory.loaded p.glyphs image, rfl⟩, Memory.read_loaded_glyph p.glyphs,
    fun _ => Memory.read_loaded_image p.glyphs, fun _ => Memory.read_loaded_elsewhere p.glyphs⟩
  calc Host.Core.run Sys2Proof.core 3 _
    _ = Host.Core.run Sys2Proof.core 2 _ := run_succ_of_step 2 (step_load rfl rfl fits)
    _ = Host.Core.run Sys2Proof.core 1 _ := run_succ_of_step 1 (step_strap rfl rfl (variantOfCode_code variant))
    _ = Host.Core.run Sys2Proof.core 0 _ := run_succ_of_step 0 (step_setRun_running rfl (by nofun) rfl)

/-- Settles O35: `State.mayLoad_iff` and `State.mayStrap_iff` say when the host has the move, and each answer to it has
a lemma of its own. -/
theorem loaderIsCheckedBeforeStart : Obligations.LoaderIsCheckedBeforeStart := by
  unfold Obligations.LoaderIsCheckedBeforeStart
  intro s
  refine ⟨fun image turn => ⟨fun early live => ?_, fun late => step_load_outOfTurn turn fun allowed => ?_⟩,
    fun code turn => ⟨fun loaded live => ?_, fun late => step_strap_outOfTurn turn fun allowed => ?_⟩⟩
  · have allowed : s.mayLoad = true := s.mayLoad_iff.mpr ⟨early, live⟩
    exact ⟨fun fits => ⟨_, step_load turn allowed fits, rfl⟩, step_load_imageTooLong turn allowed⟩
  · obtain ⟨early, live⟩ := s.mayLoad_iff.mp allowed
    obtain boot | boot | run := late
    · simp [boot] at early
    · simp [boot] at early
    · exact live run
  · have allowed : s.mayStrap = true := s.mayStrap_iff.mpr ⟨loaded, live⟩
    refine ⟨fun free => ?_, step_strap_reservedVariant turn allowed⟩
    obtain ⟨a, named⟩ := exists_variantOfCode free
    exact ⟨_, step_strap turn allowed named, code_of_variantOfCode named, rfl⟩
  · obtain ⟨loaded, live⟩ := s.mayStrap_iff.mp allowed
    exact late.elim (· loaded) live

end Sys2Proof.Machine
end
